-- ==== Sys2Proof/Word.lean ====
section
/-! DEFINITION. The item types of CORE's streams (30_encoding.md R50 to R53) and the type of `step_index`. -/

namespace Sys2Proof

/-- SAMPLE16: one PCM sample, 16 bits, two's complement; its value is `BitVec.toInt` (30_encoding.md R51). -/
abbrev Sample := BitVec 16

/-- BYTE8: two codes, the earlier one in bits 3:0 (30_encoding.md R52). -/
abbrev Byte := BitVec 8

/-- CODE4: sign in bit 3, magnitude in bits 2:0 (30_encoding.md R53). -/
abbrev Code := BitVec 4

/-- CMD2: the operation select of a command (30_encoding.md R58). -/
abbrev Op := BitVec 2

/-- The values of the register `step_index`: the integers 0 to 88, so that an invalid index cannot be
written down (10_state.md R11, R12; 92_eei_decisions.md D7; log entry 3). -/
abbrev StepIndex := Fin 89

end Sys2Proof
end

