-- ==== Sys2Proof/Syntax.lean ====
section
/-! DEFINITION. The instructions of CORE: the sixteen codes the DEC unit executes and the four commands a caller
issues (30_encoding.md R57, R58; spec/opcode_table.json), and the raw form in which they reach the block. -/

namespace Sys2Proof

/-- One constructor per row of the opcode table. -/
inductive Instr where
  | p0
  | p1
  | p2
  | p3
  | p4
  | p5
  | p6
  | p7
  | n0
  | n1
  | n2
  | n3
  | n4
  | n5
  | n6
  | n7
  | idle
  | reset
  | encode (samples : List Sample)
  | decode (bytes : List Byte)
  deriving DecidableEq, Repr

/-- What the two bits of `op` select (30_encoding.md R58). -/
inductive CmdKind where
  | idle
  | reset
  | encode
  | decode
  deriving DecidableEq, Repr

/-- One item of a sequence: a sample or a byte (30_encoding.md R50). -/
inductive Item where
  | sample (v : Sample)
  | byte (v : Byte)
  deriving DecidableEq, Repr

/-- One input item as it is presented: with its `last` mark (30_encoding.md R59). -/
structure Beat where
  item : Item
  last : Bool
  deriving DecidableEq, Repr

/-- A command as the caller presents it: the operation select, then the framed items of its operand
(30_encoding.md R58, R59). -/
structure Frame where
  op : Op
  beats : List Beat
  deriving DecidableEq, Repr

/-- The encoded form of an instruction: a command frame, or four bits of the code stream. The two live in different
places (the command port, the code stream), which is why `0b00` can be IDLE in one and P0 in the other. -/
inductive Encoded where
  | command (f : Frame)
  | code (c : Code)
  deriving DecidableEq, Repr

/-- Why a frame encodes no command (log entry 9). -/
inductive DecodeError where
  /-- IDLE or RESET with an item: their operand is "none". -/
  | operandNotTaken
  /-- A byte in the operand of ENCODE, or a sample in that of DECODE. -/
  | wrongItemFormat
  /-- A `last` mark missing from the final item, or standing on an earlier one. -/
  | misplacedLastMark
  deriving DecidableEq, Repr

/-- The micro-steps an instruction takes (70_reset_and_hazards.md R151): one per sample, two per byte. A code is one
micro-step of its own; IDLE and RESET process no item. -/
def Instr.microSteps : Instr → Nat
  | .encode samples => samples.length
  | .decode bytes => 2 * bytes.length
  | .p0 | .p1 | .p2 | .p3 | .p4 | .p5 | .p6 | .p7 => 1
  | .n0 | .n1 | .n2 | .n3 | .n4 | .n5 | .n6 | .n7 => 1
  | .idle | .reset => 0

end Sys2Proof
end

