-- ==== Sys2Proof/WellFormed.lean ====
section
/-! DEFINITION. Well-formedness. Every term of `Instr` is well formed, because CORE has no illegal and no reserved
encoding (30_encoding.md R60); what can be ill formed is the framing of an operand (30_encoding.md R59). -/

namespace Sys2Proof

/-- All sixteen codes, all four commands and every operand sequence are defined (30_encoding.md R60). -/
def Instr.wellFormed : Instr → Bool
  | .p0 | .p1 | .p2 | .p3 | .p4 | .p5 | .p6 | .p7 => true
  | .n0 | .n1 | .n2 | .n3 | .n4 | .n5 | .n6 | .n7 => true
  | .idle | .reset => true
  | .encode _ => true
  | .decode _ => true

def Item.isSample : Item → Bool
  | .sample _ => true
  | .byte _ => false

def Item.isByte : Item → Bool
  | .sample _ => false
  | .byte _ => true

/-- "a one-bit `last` mark that is 1 on the final item only; an empty sequence is a command with no item at all"
(30_encoding.md R59). -/
def marksWellFormed : List Beat → Bool
  | [] => true
  | [b] => b.last
  | b :: c :: rest => !b.last && marksWellFormed (c :: rest)

/-- The operand of each command (30_encoding.md R58): none, none, samples, bytes. -/
def Frame.operandWellFormed (f : Frame) : Bool :=
  if f.op = 0b10#2 then f.beats.all (fun b => b.item.isSample)
  else if f.op = 0b11#2 then f.beats.all (fun b => b.item.isByte)
  else f.beats.isEmpty

def Frame.wellFormed (f : Frame) : Bool :=
  marksWellFormed f.beats && f.operandWellFormed

/-- Every four bits are a code (30_encoding.md R60); a frame is checked. -/
def Encoded.wellFormed : Encoded → Bool
  | .command f => f.wellFormed
  | .code _ => true

end Sys2Proof
end

