-- ==== Sys2Proof/Decode.lean ====
section
/-! DEFINITION. The decoder, total on any frame and any four bits, and the encoder written from the same tables
(30_encoding.md R57, R58, R59). -/

namespace Sys2Proof

/-- The operation select (30_encoding.md R58). All four values are defined. -/
def decodeOp (op : Op) : CmdKind :=
  if op = 0b00#2 then .idle
  else if op = 0b01#2 then .reset
  else if op = 0b10#2 then .encode
  else .decode

/-- The code map (30_encoding.md R57): sign S in bit 3, magnitude M2 M1 M0 in bits 2:0. -/
def decodeCode (code : Code) : Instr :=
  match code[3], code[2], code[1], code[0] with
  | false, false, false, false => .p0
  | false, false, false, true => .p1
  | false, false, true, false => .p2
  | false, false, true, true => .p3
  | false, true, false, false => .p4
  | false, true, false, true => .p5
  | false, true, true, false => .p6
  | false, true, true, true => .p7
  | true, false, false, false => .n0
  | true, false, false, true => .n1
  | true, false, true, false => .n2
  | true, false, true, true => .n3
  | true, true, false, false => .n4
  | true, true, false, true => .n5
  | true, true, true, false => .n6
  | true, true, true, true => .n7

def Item.sample? : Item → Option Sample
  | .sample v => some v
  | .byte _ => none

def Item.byte? : Item → Option Byte
  | .sample _ => none
  | .byte v => some v

/-- Takes a sequence operand out of its frame, item by item (30_encoding.md R59). -/
def unframe {α : Type} (take : Item → Option α) : List Beat → Except DecodeError (List α)
  | [] => .ok []
  | b :: rest =>
    match take b.item with
    | none => .error .wrongItemFormat
    | some v =>
      if b.last = rest.isEmpty then
        match unframe take rest with
        | .ok vs => .ok (v :: vs)
        | .error e => .error e
      else .error .misplacedLastMark

/-- The command a frame encodes, or why it encodes none. -/
def decodeFrame (f : Frame) : Except DecodeError Instr :=
  match decodeOp f.op with
  | .idle => if f.beats.isEmpty then .ok .idle else .error .operandNotTaken
  | .reset => if f.beats.isEmpty then .ok .reset else .error .operandNotTaken
  | .encode => (unframe Item.sample? f.beats).map Instr.encode
  | .decode => (unframe Item.byte? f.beats).map Instr.decode

def decode : Encoded → Except DecodeError Instr
  | .command f => decodeFrame f
  | .code c => .ok (decodeCode c)

/-- Puts a sequence operand into its frame (30_encoding.md R59). -/
def framed {α : Type} (put : α → Item) : List α → List Beat
  | [] => []
  | v :: rest => ⟨put v, rest.isEmpty⟩ :: framed put rest

/-- The words of an instruction (30_encoding.md R57, R58). -/
def encode : Instr → Encoded
  | .p0 => .code 0b0000#4
  | .p1 => .code 0b0001#4
  | .p2 => .code 0b0010#4
  | .p3 => .code 0b0011#4
  | .p4 => .code 0b0100#4
  | .p5 => .code 0b0101#4
  | .p6 => .code 0b0110#4
  | .p7 => .code 0b0111#4
  | .n0 => .code 0b1000#4
  | .n1 => .code 0b1001#4
  | .n2 => .code 0b1010#4
  | .n3 => .code 0b1011#4
  | .n4 => .code 0b1100#4
  | .n5 => .code 0b1101#4
  | .n6 => .code 0b1110#4
  | .n7 => .code 0b1111#4
  | .idle => .command ⟨0b00#2, []⟩
  | .reset => .command ⟨0b01#2, []⟩
  | .encode samples => .command ⟨0b10#2, framed Item.sample samples⟩
  | .decode bytes => .command ⟨0b11#2, framed Item.byte bytes⟩

/-- How the opcode table's rows are presented to the decoder (log entry 12). CMD2 rows have two bits and CODE4 rows
four; in one whole byte the values 0 to 3 name a row of each, and are read as the command, which is what the machine
fetches between commands. The operand a row has no bits for is the empty sequence. -/
def tableWord (nbits w : Nat) : Option Encoded :=
  if nbits = 2 then
    if w < 4 then some (.command ⟨BitVec.ofNat 2 w, []⟩) else none
  else if nbits = 4 then
    if w < 16 then some (.code (BitVec.ofNat 4 w)) else none
  else if nbits = 8 then
    if w < 4 then some (.command ⟨BitVec.ofNat 2 w, []⟩)
    else if w < 16 then some (.code (BitVec.ofNat 4 w))
    else none
  else none

/-- The instruction the decoder reads from a row of the opcode table. -/
def decodeTableWord (nbits w : Nat) : Option Instr :=
  match tableWord nbits w with
  | none => none
  | some e =>
    match decode e with
    | .ok i => some i
    | .error _ => none

end Sys2Proof
end

