-- ==== Sys2Proof/Machine/Flags.lean ====
section
/-! DEFINITION. CORE has no status flag (10_state.md R15). What would be flags elsewhere are the combinational values
the quantizer turns into the bits of a code (42_encode.md R88). -/

namespace Sys2Proof.Machine

/-- The sign bit of a code: `diff < 0` (42_encode.md R88). Zero is not negative. -/
def isNegative (diff : Int) : Bool := decide (diff < 0)

/-- The comparison of the greedy quantizer, QCMP: "greater than or equal". UNVERIFIED (92_eei_decisions.md D2,
93_implementation_defined.md G3; log entry 2). -/
def meets (remainder threshold : Int) : Bool := decide (threshold ≤ remainder)

end Sys2Proof.Machine
end

