-- ==== Sys2Proof/Config.lean ====
section
/-! DEFINITION. The parameters of CORE (00_scope.md R6). The ROM contents and the comparator of the quantizer are in
Machine/Rom.lean and Machine/Flags.lean. CORE has no free value: it is deterministic (40_common_datapath.md R84). -/

namespace Sys2Proof.Config

/-- PS_MIN, PS_MAX: the clamp bounds of `predicted_sample` (00_scope.md R6). -/
def psMin : Int := -32768
def psMax : Int := 32767

/-- SI_MIN, SI_MAX: the clamp bounds of `step_index` (00_scope.md R6). -/
def siMin : Int := 0
def siMax : Int := 88

/-- STEP_N, INDEX_N: the number of entries of the two tables (00_scope.md R6). -/
def stepN : Nat := 89
def indexN : Nat := 16

/-- How many instances beside the selected one exist at reset. NINST is open, at least 1 (00_scope.md R6,
92_eei_decisions.md D3). DESIGN CHOICE 1, so two instances, "the usual radio has two" (log entry 6). -/
def otherInstancesAtReset : Nat := 1

end Sys2Proof.Config
end

