-- ==== Sys2Proof/Machine/Rom.lean ====
section
/-! DEFINITION. The ROM unit: the STEP space and the INDEX space (20_memory.md R25 to R30). Constants, no state
(10_state.md R20), one ROM for all instances, no write. UNVERIFIED contents (log entry 1). -/

namespace Sys2Proof.Machine

/-- The STEP ROM, rows as 20_memory.md R27 prints them. -/
def stepTable : List Nat :=
  [7, 8, 9, 10, 11, 12, 13, 14] ++
  [16, 17, 19, 21, 23, 25, 28, 31] ++
  [34, 37, 41, 45, 50, 55, 60, 66] ++
  [73, 80, 88, 97, 107, 118, 130, 143] ++
  [157, 173, 190, 209, 230, 253, 279, 307] ++
  [337, 371, 408, 449, 494, 544, 598, 658] ++
  [724, 796, 876, 963, 1060, 1166, 1282, 1411] ++
  [1552, 1707, 1878, 2066, 2272, 2499, 2749, 3024] ++
  [3327, 3660, 4026, 4428, 4871, 5358, 5894, 6484] ++
  [7132, 7845, 8630, 9493, 10442, 11487, 12635, 13899] ++
  [15289, 16818, 18500, 20350, 22385, 24623, 27086, 29794] ++
  [32767]

/-- The INDEX ROM (20_memory.md R28). -/
def indexTable : List Int :=
  [-1, -1, -1, -1, 2, 4, 6, 8] ++
  [-1, -1, -1, -1, 2, 4, 6, 8]

/-- Every address 0 to 88 of the STEP space is populated (20_memory.md R39). -/
theorem stepTable_length : stepTable.length = 89 := rfl

/-- Every address 0 to 15 of the INDEX space is populated (20_memory.md R39). -/
theorem indexTable_length : indexTable.length = 16 := rfl

/-- `STEP[a]`: a read of one word, no side effect (20_memory.md R25, R30). -/
def stepAt (a : StepIndex) : Nat := stepTable[a.val]'(by rw [stepTable_length]; exact a.isLt)

/-- `INDEX[c]`: the address is the whole code, sign bit included (20_memory.md R26, 40_common_datapath.md R72). -/
def indexAt (c : Code) : Int := indexTable[c.toNat]'(by rw [indexTable_length]; exact c.isLt)

end Sys2Proof.Machine
end

