-- ==== Sys2Proof/Machine/Operands.lean ====
section
/-! DEFINITION. Operand assembly: the clamp, the thresholds of a step size, the reconstructed difference, the code, and
the two codes of a byte (30_encoding.md R53 to R56; 40_common_datapath.md R70 to R75). -/

namespace Sys2Proof.Machine

/-- CLAMP, over the integers: it saturates and never wraps (40_common_datapath.md R70). -/
def clamp (v lo hi : Int) : Int :=
  if v < lo then lo else if v > hi then hi else v

/-- `e = step >> 3`, `q = step >> 2`, `h = step >> 1` (30_encoding.md R57). -/
def eighth (step : Nat) : Nat := step >>> 3
def quarter (step : Nat) : Nat := step >>> 2
def half (step : Nat) : Nat := step >>> 1

/-- DQ: the sum of separately truncated shifts, not a scaled product; the sign bit is not used
(40_common_datapath.md R73, R80). -/
def dq (code : Code) (step : Nat) : Nat :=
  eighth step
    + (if code[2] then step else 0)
    + (if code[1] then half step else 0)
    + (if code[0] then quarter step else 0)

/-- The exact value the predictor takes before the clamp (40_common_datapath.md R74, R77). -/
def predictorSum (negative : Bool) (p : Int) (d : Nat) : Int :=
  if negative then p - d else p + d

/-- The pattern of the predictor, clamped to [-32768, 32767] (40_common_datapath.md R74). -/
def clampPredictor (v : Int) : Sample := BitVec.ofInt 16 (clamp v Config.psMin Config.psMax)

theorem clampIndex_lt (v : Int) : (clamp v Config.siMin Config.siMax).toNat < 89 := by
  unfold clamp Config.siMin Config.siMax
  split
  · decide
  · split <;> omega

/-- The index, clamped to [0, 88] (40_common_datapath.md R75). -/
def clampIndex (v : Int) : StepIndex := ⟨(clamp v Config.siMin Config.siMax).toNat, clampIndex_lt v⟩

/-- A code from its four bits S, M2, M1, M0 (30_encoding.md R53). -/
def codeOfBits (sign m2 m1 m0 : Bool) : Code :=
  BitVec.ofBool sign ++ BitVec.ofBool m2 ++ BitVec.ofBool m1 ++ BitVec.ofBool m0

/-- UNPACK: the code executed first, and the code executed second (43_decode.md R97). -/
def lowNibble (b : Byte) : Code := b.extractLsb' 0 4
def highNibble (b : Byte) : Code := b.extractLsb' 4 4

/-- The two codes of a byte in execution order (43_decode.md R97). -/
def unpack (b : Byte) : List Code := [lowNibble b, highNibble b]

/-- PACK's byte `{hi, lo}`: the later code in the high nibble (30_encoding.md R56, 20_memory.md R33). -/
def packByte (hi lo : Code) : Byte := hi ++ lo

end Sys2Proof.Machine
end

