-- ==== Sys2Proof/Machine/State.lean ====
section
/-! DEFINITION. The state of CORE: the register pair, the packer, the position in the running command, and the
caller's sequences on both sides of the block (10_state.md R10 to R24; 60_exceptions.md R131). -/

namespace Sys2Proof.Machine

/-- Which half of a byte the DEC unit executes next: "a nibble select (low, then high)" (10_state.md R17). -/
inductive Nibble where
  | low
  | high
  deriving DecidableEq, Repr

/-- The command an instance is running, with the position in its input (10_state.md R17) and the items of the input
that are still to be taken, which lie with the caller (20_memory.md R47). -/
inductive Job where
  /-- Between commands. -/
  | idle
  /-- ENCODE: the sample index, and the samples from that index on. -/
  | encoding (pos : Nat) (rest : List Sample)
  /-- DECODE: the byte index, the bytes from that index on, and the nibble select. -/
  | decoding (pos : Nat) (rest : List Byte) (nibble : Nibble)
  deriving DecidableEq, Repr

/-- One instance of CORE with its caller's side. `ps` and `si` are the register pair (10_state.md R10, R11), `pend` and
`pendValid` the packer's buffer (R14), `job` the running command (R17). `cmds` (the frames the caller will issue to
this instance, in order) and `out` (the items the instance has delivered, in order) belong to the caller
(20_memory.md R47; log entry 10). -/
structure Codec where
  ps : Sample
  si : StepIndex
  pend : Code
  pendValid : Bool
  job : Job
  cmds : List Frame
  out : List Item
  deriving DecidableEq, Repr

/-- The state `fresh`: creation, power-on (10_state.md R21; log entries 4, 5, 10). -/
def Codec.fresh : Codec :=
  { ps := 0#16, si := 0, pend := 0#4, pendValid := false, job := .idle, cmds := [], out := [] }

/-- All instances (60_exceptions.md R131), with one of them selected: `before ++ cur :: after` are the instances in
order of their numbers, and `cur` is the one that moves next. `turns` is the caller's choice of who moves in which
step after that (20_memory.md R41; log entry 7). -/
structure State where
  before : List Codec
  cur : Codec
  after : List Codec
  turns : List Nat
  deriving DecidableEq, Repr

/-- CORE raises no exception of any kind (60_exceptions.md R119), so there is no fault: the type has no constructor. -/
inductive Fault where
  deriving DecidableEq, Repr

/-- Why a step has no meaning. No instruction of the opcode table is refused. -/
inductive Refusal where
  /-- Raised by an arm of `exec` whose instruction has no meaning yet. No arm raises it. Safe. -/
  | notModelled (mnemonic : String)
  /-- Raised when the caller's next frame breaks the framing of 30_encoding.md R59, so that it encodes no command. The
  spec gives such a frame no meaning (log entry 9). Safe. -/
  | malformedFrame (why : DecodeError)
  /-- Raised when the caller's next turn names an instance that does not exist (log entry 7). Safe. -/
  | noSuchInstance (number : Nat)
  deriving DecidableEq, Repr

/-- After power-on every instance is fresh, and no command has been issued (10_state.md R21; 60_exceptions.md R131). -/
def State.reset : State :=
  { before := []
    cur := Codec.fresh
    after := List.replicate Config.otherInstancesAtReset Codec.fresh
    turns := [] }

/-- The instances in order of their numbers. -/
def State.all (s : State) : List Codec := s.before ++ s.cur :: s.after

end Sys2Proof.Machine
end

