-- ==== Sys2Proof/Machine/Ops.lean ====
section
/-! DEFINITION. The named operations over the state: the registers, the output, the packer, the running command, and
the selection of an instance. CORE has no read-write memory (20_memory.md R30), takes no exception and returns from
none (60_exceptions.md R119, R126, R127), so there is no operation for either. -/

namespace Sys2Proof.Machine

/-- Changes the selected instance and no other. -/
def State.updCur (f : Codec → Codec) (s : State) : State := { s with cur := f s.cur }

/-- Writes the register pair, both at once (20_memory.md R38). -/
def Codec.setRegs (p : Sample) (i : StepIndex) (k : Codec) : Codec := { k with ps := p, si := i }

/-- `emit(v)`: appends one item to what the instance has delivered (00_scope.md R8). -/
def Codec.emit (v : Item) (k : Codec) : Codec := { k with out := k.out ++ [v] }

def Codec.setJob (j : Job) (k : Codec) : Codec := { k with job := j }

def Codec.setCmds (fs : List Frame) (k : Codec) : Codec := { k with cmds := fs }

/-- The shared reconstruction step (40_common_datapath.md R76): the step size is read at the old index, the difference
`d` of it is added or subtracted, both results are clamped, and both registers are written together. -/
def Codec.reconstruct (negative : Bool) (d : Nat → Nat) (adj : Int) (k : Codec) : Codec :=
  k.setRegs
    (clampPredictor (predictorSum negative k.ps.toInt (d (stepAt k.si))))
    (clampIndex ((k.si.val : Int) + adj))

/-- RECON of a code (40_common_datapath.md R76). -/
def Codec.recon (code : Code) (k : Codec) : Codec := k.reconstruct code[3] (dq code) (indexAt code)

/-- A code executed by the DEC unit: reconstruct, then deliver the new predictor (43_decode.md R98). -/
def Codec.emitPredictor (k : Codec) : Codec := k.emit (.sample k.ps)

/-- DEC_STEP (43_decode.md R98). -/
def Codec.decStep (c : Code) (k : Codec) : Codec := (k.recon c).emitPredictor

/-- PACK (42_encode.md R90): the first code of a pair is buffered, the second completes the byte. `pend` keeps its
value when `pend_valid` is cleared, and is not read then. -/
def Codec.pack (c : Code) (k : Codec) : Codec :=
  if k.pendValid then { k.emit (.byte (packByte c k.pend)) with pendValid := false }
  else { k with pend := c, pendValid := true }

/-- FLUSH (42_encode.md R90): a lone code goes out with a zero high nibble. -/
def Codec.flush (k : Codec) : Codec :=
  if k.pendValid then { k.emit (.byte (packByte 0b0000#4 k.pend)) with pendValid := false }
  else k

/-- `pend_valid <- 0` at the start of every ENCODE (42_encode.md R91, 10_state.md R14). -/
def Codec.clearPend (k : Codec) : Codec := { k with pendValid := false }

/-- Selects the instance with the given number, if there is one. -/
def State.focus (n : Nat) (s : State) : Option State :=
  match s.all.drop n with
  | [] => none
  | k :: rest => some { s with before := s.all.take n, cur := k, after := rest }

/-- The caller's next turn: the named instance moves; with no turn listed, the selected one does (log entry 7). -/
def State.takeTurn (s : State) : Host.Outcome State Fault Refusal :=
  match s.turns with
  | [] => .next s
  | n :: ns =>
    match s.focus n with
    | none => .refused (.noSuchInstance n)
    | some t => .next { t with turns := ns }

/-- Goes on from a next state, and stops where the first part stops. -/
def andThen (o : Host.Outcome State Fault Refusal) (f : State → Host.Outcome State Fault Refusal) :
    Host.Outcome State Fault Refusal :=
  match o with
  | .next s => f s
  | .fault r => .fault r
  | .refused r => .refused r

end Sys2Proof.Machine
end

