-- ==== Sys2Proof/Machine/Codes.lean ====
section
/-! DEFINITION. The sixteen codes, each written from its own rule (43_decode.md R99 to R114), with the difference as a
function of the step size read at the old index, and the index adjustment as the rule prints it. -/

namespace Sys2Proof.Machine

/-- One code of the code stream: `negative` chooses subtract or add, `d` is the rule's `d` line and `adj` its index
line; the new predictor is emitted (43_decode.md R98). -/
def codeStep (negative : Bool) (d : Nat → Nat) (adj : Int) (s : State) : State :=
  s.updCur (fun k => (k.reconstruct negative d adj).emitPredictor)

/-- P0, code 0x0 (43_decode.md R99). -/
def execP0 (s : State) : Host.Outcome State Fault Refusal :=
  .next (codeStep false (fun step => eighth step) (-1) s)

/-- P1, code 0x1 (43_decode.md R100). -/
def execP1 (s : State) : Host.Outcome State Fault Refusal :=
  .next (codeStep false (fun step => eighth step + quarter step) (-1) s)

/-- P2, code 0x2 (43_decode.md R101). -/
def execP2 (s : State) : Host.Outcome State Fault Refusal :=
  .next (codeStep false (fun step => eighth step + half step) (-1) s)

/-- P3, code 0x3 (43_decode.md R102). -/
def execP3 (s : State) : Host.Outcome State Fault Refusal :=
  .next (codeStep false (fun step => eighth step + half step + quarter step) (-1) s)

/-- P4, code 0x4 (43_decode.md R103). -/
def execP4 (s : State) : Host.Outcome State Fault Refusal :=
  .next (codeStep false (fun step => eighth step + step) 2 s)

/-- P5, code 0x5 (43_decode.md R104). -/
def execP5 (s : State) : Host.Outcome State Fault Refusal :=
  .next (codeStep false (fun step => eighth step + step + quarter step) 4 s)

/-- P6, code 0x6 (43_decode.md R105). -/
def execP6 (s : State) : Host.Outcome State Fault Refusal :=
  .next (codeStep false (fun step => eighth step + step + half step) 6 s)

/-- P7, code 0x7 (43_decode.md R106). -/
def execP7 (s : State) : Host.Outcome State Fault Refusal :=
  .next (codeStep false (fun step => eighth step + step + half step + quarter step) 8 s)

/-- N0, code 0x8 (43_decode.md R107). -/
def execN0 (s : State) : Host.Outcome State Fault Refusal :=
  .next (codeStep true (fun step => eighth step) (-1) s)

/-- N1, code 0x9 (43_decode.md R108). -/
def execN1 (s : State) : Host.Outcome State Fault Refusal :=
  .next (codeStep true (fun step => eighth step + quarter step) (-1) s)

/-- N2, code 0xA (43_decode.md R109). -/
def execN2 (s : State) : Host.Outcome State Fault Refusal :=
  .next (codeStep true (fun step => eighth step + half step) (-1) s)

/-- N3, code 0xB (43_decode.md R110). -/
def execN3 (s : State) : Host.Outcome State Fault Refusal :=
  .next (codeStep true (fun step => eighth step + half step + quarter step) (-1) s)

/-- N4, code 0xC (43_decode.md R111). -/
def execN4 (s : State) : Host.Outcome State Fault Refusal :=
  .next (codeStep true (fun step => eighth step + step) 2 s)

/-- N5, code 0xD (43_decode.md R112). -/
def execN5 (s : State) : Host.Outcome State Fault Refusal :=
  .next (codeStep true (fun step => eighth step + step + quarter step) 4 s)

/-- N6, code 0xE (43_decode.md R113). -/
def execN6 (s : State) : Host.Outcome State Fault Refusal :=
  .next (codeStep true (fun step => eighth step + step + half step) 6 s)

/-- N7, code 0xF (43_decode.md R114). -/
def execN7 (s : State) : Host.Outcome State Fault Refusal :=
  .next (codeStep true (fun step => eighth step + step + half step + quarter step) 8 s)

end Sys2Proof.Machine
end

