-- ==== Sys2Proof/Machine/Control.lean ====
section
/-! DEFINITION. The commands that take no data: RESET and IDLE (41_reset.md R85, R86). -/

namespace Sys2Proof.Machine

/-- RESET writes 0 to both registers of the instance and touches nothing else (41_reset.md R85). -/
def execReset (s : State) : Host.Outcome State Fault Refusal :=
  .next (s.updCur (Codec.setRegs 0#16 0))

/-- IDLE reads nothing, writes nothing, emits nothing (41_reset.md R86). -/
def execIdle (s : State) : Host.Outcome State Fault Refusal := .next s

end Sys2Proof.Machine
end

