-- ==== Sys2Proof/Machine/Decoder.lean ====
section
/-! DEFINITION. The DEC unit: the command DECODE (43_decode.md R97, R98, R115). -/

namespace Sys2Proof.Machine

/-- Everything done for one byte: the low nibble first, then the high nibble (43_decode.md R97, R115). -/
def Codec.decodeByte (b : Byte) (k : Codec) : Codec :=
  (k.decStep (lowNibble b)).decStep (highNibble b)

/-- The loop of DECODE, in increasing order (43_decode.md R115). -/
def Codec.decodeBytes : List Byte → Codec → Codec
  | [], k => k
  | b :: rest, k => Codec.decodeBytes rest (k.decodeByte b)

/-- DECODE (43_decode.md R115). -/
def execDecode (bytes : List Byte) (s : State) : Host.Outcome State Fault Refusal :=
  .next (s.updCur (Codec.decodeBytes bytes))

end Sys2Proof.Machine
end

