-- ==== Sys2Proof/Machine/Encoder.lean ====
section
/-! DEFINITION. The ENC unit: QUANT, ENC_STEP and the command ENCODE (42_encode.md R88 to R91). -/

namespace Sys2Proof.Machine

/-- QUANT (42_encode.md R88). `s` and `p` are the values of the sample and of the predictor; the matched magnitude is
subtracted for bits 2 and 1 and not for bit 0. -/
def quant (s p : Int) (step : Nat) : Code :=
  let diff := s - p
  let sign := isNegative diff
  let a := if sign then -diff else diff
  let m2 := meets a step
  let a := if m2 then a - step else a
  let m1 := meets a (half step)
  let a := if m1 then a - half step else a
  let m0 := meets a (quarter step)
  codeOfBits sign m2 m1 m0

/-- The code of a sample in the state of an instance (42_encode.md R89: steps 1 to 4). -/
def Codec.codeFor (x : Sample) (k : Codec) : Code := quant x.toInt k.ps.toInt (stepAt k.si)

/-- ENC_STEP, its code handed to PACK (42_encode.md R89, R91): everything done for one sample. -/
def Codec.encodeSample (x : Sample) (k : Codec) : Codec :=
  let c := k.codeFor x
  (k.recon c).pack c

/-- The loop of ENCODE, in increasing order (42_encode.md R91). -/
def Codec.encodeSamples : List Sample → Codec → Codec
  | [], k => k
  | x :: rest, k => Codec.encodeSamples rest (k.encodeSample x)

/-- ENCODE (42_encode.md R91): clear the packer, take the samples in order, flush. -/
def execEncode (samples : List Sample) (s : State) : Host.Outcome State Fault Refusal :=
  .next (s.updCur (fun k => (Codec.encodeSamples samples k.clearPend).flush))

end Sys2Proof.Machine
end

