-- ==== Sys2Proof/Machine/Sequencer.lean ====
section
/-! DEFINITION. How an instance moves by one micro-step (70_reset_and_hazards.md R151): it accepts the caller's next
command when it is between commands (20_memory.md R42), takes the next sample of an ENCODE, or fetches and executes
the next code of a DECODE (10_state.md R17). -/

namespace Sys2Proof.Machine

/-- An accepted command. ENCODE and DECODE take their operand and start at position 0; with an empty operand they have
ended at once. IDLE and RESET take effect here (log entry 8). -/
def accept (i : Instr) (s : State) : Host.Outcome State Fault Refusal :=
  match i with
  | .encode [] => exec (.encode []) s
  | .encode (x :: rest) => .next (s.updCur (fun k => k.clearPend.setJob (.encoding 0 (x :: rest))))
  | .decode [] => exec (.decode []) s
  | .decode (b :: rest) => .next (s.updCur (Codec.setJob (.decoding 0 (b :: rest) .low)))
  | i => exec i s

/-- Between commands: fetch the caller's next frame, decode it and accept it. With no frame there, no command is
issued, which is IDLE (41_reset.md R86; log entry 21). -/
def issue (s : State) : Host.Outcome State Fault Refusal :=
  match s.cur.cmds with
  | [] => exec .idle s
  | f :: fs =>
    match decodeFrame f with
    | .error e => .refused (.malformedFrame e)
    | .ok i => accept i (s.updCur (Codec.setCmds fs))

/-- One micro-step of ENCODE: ENC_STEP and PACK of the next sample; after the last one FLUSH, and the command ends
(42_encode.md R91). -/
def Codec.encodeNext (pos : Nat) (rest : List Sample) (k : Codec) : Codec :=
  match rest with
  | [] => k.flush.setJob .idle
  | [x] => (k.encodeSample x).flush.setJob .idle
  | x :: y :: more => (k.encodeSample x).setJob (.encoding (pos + 1) (y :: more))

/-- The code the DEC unit fetches: the selected nibble of the byte at the position (43_decode.md R97). -/
def fetchNibble (b : Byte) : Nibble → Code
  | .low => lowNibble b
  | .high => highNibble b

/-- The position after a code has been executed: the high nibble follows the low one, then the next byte; the command
ends after the high nibble of the last byte (43_decode.md R115). -/
def decodeAdvance (pos : Nat) (b : Byte) (more : List Byte) : Nibble → Job
  | .low => .decoding pos (b :: more) .high
  | .high =>
    match more with
    | [] => .idle
    | c :: rest => .decoding (pos + 1) (c :: rest) .low

/-- One micro-step of DECODE: fetch a code, decode it, execute it, advance. A DECODE with no byte left has ended (log
entry 16). -/
def decodeNext (pos : Nat) (rest : List Byte) (nibble : Nibble) (s : State) : Host.Outcome State Fault Refusal :=
  match rest with
  | [] => .next (s.updCur (Codec.setJob .idle))
  | b :: more =>
    andThen (exec (decodeCode (fetchNibble b nibble)) s)
      (fun t => .next (t.updCur (Codec.setJob (decodeAdvance pos b more nibble))))

/-- The selected instance moves by one micro-step. -/
def microStep (s : State) : Host.Outcome State Fault Refusal :=
  match s.cur.job with
  | .idle => issue s
  | .encoding pos rest => .next (s.updCur (Codec.encodeNext pos rest))
  | .decoding pos rest nibble => decodeNext pos rest nibble s

/-- Puts an encoded instruction where the selected instance fetches next: a command at the head of the caller's
frames, with no command running; a code in the low nibble of the one byte of a running DECODE (log entry 11). -/
def State.withFetch (e : Encoded) (s : State) : State :=
  match e with
  | .command f => { s.updCur (fun k => (k.setJob .idle).setCmds (f :: k.cmds)) with turns := [] }
  | .code c => { s.updCur (Codec.setJob (.decoding 0 [packByte 0#4 c] .low)) with turns := [] }

end Sys2Proof.Machine
end

