-- ==== Sys2Proof/Machine/Step.lean ====
section
/-! DEFINITION. One step of the system: the instance whose turn it is moves by one micro-step. -/

namespace Sys2Proof.Machine

def step (s : State) : Host.Outcome State Fault Refusal := andThen s.takeTurn microStep

/-- The state with the instruction of an opcode-table row placed where `step` fetches next (log entry 11). -/
def State.withFetchWord (s : State) (nbits w : Nat) : State :=
  match tableWord nbits w with
  | none => s
  | some e => s.withFetch e

end Sys2Proof.Machine
end

