-- ==== Sys2Proof/Safety.lean ====
section
/-! DEFINITION. What a good state is, in the terms the statements use. That `step_index` lies in [0, 88] and
`predicted_sample` in [-32768, 32767] is in the types (10_state.md R12, R24); what the types do not say is how the
packer goes with the running command (10_state.md R14, R15). -/

namespace Sys2Proof.Machine

/-- `n` steps of the machine the host reads, over the model's own types. -/
def runSteps (n : Nat) (s : State) : Host.Outcome State Fault Refusal := Host.Core.run Sys2Proof.core n s

/-- A running command has an item left. The packer holds a code exactly in the middle of a pair of an ENCODE: after an
odd number of its samples (10_state.md R14, R15). -/
def Codec.inv (k : Codec) : Bool :=
  match k.job with
  | .idle => !k.pendValid
  | .encoding pos rest => !rest.isEmpty && (k.pendValid == (pos % 2 == 1))
  | .decoding _ rest _ => !rest.isEmpty && !k.pendValid

/-- The register pair: the whole codec state that outlives a command (10_state.md R10, R11). -/
def Codec.regs (k : Codec) : Sample × StepIndex := (k.ps, k.si)

/-- The registers after RECON of some codes in order (40_common_datapath.md R76). -/
def Codec.reconAll : List Code → Codec → Codec
  | [], k => k
  | c :: rest, k => Codec.reconAll rest (k.recon c)

/-- DEC_STEP of some codes in order, whatever bytes carried them (43_decode.md R98). -/
def Codec.decSteps : List Code → Codec → Codec
  | [], k => k
  | c :: rest, k => Codec.decSteps rest (k.decStep c)

/-- The codes `c_0 ... c_(n-1)` that ENCODE gives the samples (42_encode.md R91). -/
def codesOf : List Sample → Codec → List Code
  | [], _ => []
  | x :: rest, k => k.codeFor x :: codesOf rest (k.recon (k.codeFor x))

/-- The predictor after each sample of an ENCODE (42_encode.md R93). -/
def predictorsOf : List Sample → Codec → List Sample
  | [], _ => []
  | x :: rest, k => (k.recon (k.codeFor x)).ps :: predictorsOf rest (k.recon (k.codeFor x))

/-- The number of the instance that moves in the next step (log entry 7). -/
def State.mover (s : State) : Nat :=
  match s.turns with
  | [] => s.before.length
  | n :: _ => n

/-- Every instance is good. -/
def State.inv (s : State) : Bool := s.all.all Codec.inv

/-- The caller keeps to the interface: every frame waiting is well formed (30_encoding.md R59), and every turn names an
instance. -/
def State.callerInv (s : State) : Bool :=
  s.all.all (fun k => k.cmds.all Frame.wellFormed) && s.turns.all (fun n => n < s.all.length)

end Sys2Proof.Machine
end

