-- ==== Sys2Proof/Laws/Operands.lean ====
section
/-! SUPPORT. What the clamps, the table reads and the nibbles can answer. -/

namespace Sys2Proof.Machine

theorem clamp_eq_max_min {v lo hi : Int} (h : lo ≤ hi) : clamp v lo hi = max lo (min hi v) := by
  unfold clamp
  split
  · omega
  · split <;> omega

/-- The clamped predictor, read as an integer. -/
theorem clampPredictor_toInt (v : Int) : (clampPredictor v).toInt = max (-32768) (min 32767 v) := by
  have h : clamp v Config.psMin Config.psMax = max (-32768) (min 32767 v) :=
    clamp_eq_max_min (by decide)
  rw [clampPredictor, h, BitVec.toInt_ofInt, Int.bmod_def]
  omega

/-- The clamped index, read as an integer. -/
theorem clampIndex_val (v : Int) : ((clampIndex v).val : Int) = max 0 (min 88 v) := by
  have h : clamp v Config.siMin Config.siMax = max 0 (min 88 v) := clamp_eq_max_min (by decide)
  have e : (clampIndex v).val = (clamp v Config.siMin Config.siMax).toNat := rfl
  rw [e, h]
  omega

theorem sample_toInt_bounds (x : Sample) : -32768 ≤ x.toInt ∧ x.toInt ≤ 32767 := by
  have h1 := BitVec.toInt_lt (x := x)
  have h2 := BitVec.le_toInt (x := x)
  omega

/-- Every step size is positive and fits 15 bits (20_memory.md R29 item 1). -/
theorem stepAt_bounds : ∀ a : StepIndex, 7 ≤ stepAt a ∧ stepAt a ≤ 32767 := by decide

/-- The adjustments lie in [-1, 8] (20_memory.md R29 item 5). -/
theorem indexAt_bounds : ∀ c : Code, -1 ≤ indexAt c ∧ indexAt c ≤ 8 := by decide

theorem eighth_eq_div (step : Nat) : eighth step = step / 8 := by
  simp [eighth, Nat.shiftRight_eq_div_pow]

theorem quarter_eq_div (step : Nat) : quarter step = step / 4 := by
  simp [quarter, Nat.shiftRight_eq_div_pow]

theorem half_eq_div (step : Nat) : half step = step / 2 := by
  simp [half, Nat.shiftRight_eq_div_pow]

/-- The four bits of an assembled code. -/
theorem codeOfBits_bits : ∀ s a b c : Bool,
    (codeOfBits s a b c)[3] = s ∧ (codeOfBits s a b c)[2] = a ∧
    (codeOfBits s a b c)[1] = b ∧ (codeOfBits s a b c)[0] = c := by decide

@[simp] theorem lowNibble_packByte (hi lo : Code) : lowNibble (packByte hi lo) = lo := by
  revert hi lo; decide

@[simp] theorem highNibble_packByte (hi lo : Code) : highNibble (packByte hi lo) = hi := by
  revert hi lo; decide

/-- The byte of two codes as a number: the later code in the high nibble (30_encoding.md R56). -/
theorem packByte_toNat (hi lo : Code) : (packByte hi lo).toNat = lo.toNat ||| (hi.toNat <<< 4) :=
  (BitVec.toNat_append hi lo).trans (Nat.or_comm (hi.toNat <<< 4) lo.toNat)

end Sys2Proof.Machine
end

