-- ==== Sys2Proof/Laws/State.lean ====
section
/-! SUPPORT. One lemma per field per update, so that no proof unfolds a record update. -/

namespace Sys2Proof.Machine

@[simp] theorem Codec.setRegs_ps (p : Sample) (i : StepIndex) (k : Codec) : (k.setRegs p i).ps = p := rfl
@[simp] theorem Codec.setRegs_si (p : Sample) (i : StepIndex) (k : Codec) : (k.setRegs p i).si = i := rfl
@[simp] theorem Codec.setRegs_pend (p : Sample) (i : StepIndex) (k : Codec) : (k.setRegs p i).pend = k.pend := rfl
@[simp] theorem Codec.setRegs_pendValid (p : Sample) (i : StepIndex) (k : Codec) : (k.setRegs p i).pendValid = k.pendValid := rfl
@[simp] theorem Codec.setRegs_job (p : Sample) (i : StepIndex) (k : Codec) : (k.setRegs p i).job = k.job := rfl
@[simp] theorem Codec.setRegs_cmds (p : Sample) (i : StepIndex) (k : Codec) : (k.setRegs p i).cmds = k.cmds := rfl
@[simp] theorem Codec.setRegs_out (p : Sample) (i : StepIndex) (k : Codec) : (k.setRegs p i).out = k.out := rfl

@[simp] theorem Codec.emit_ps (v : Item) (k : Codec) : (k.emit v).ps = k.ps := rfl
@[simp] theorem Codec.emit_si (v : Item) (k : Codec) : (k.emit v).si = k.si := rfl
@[simp] theorem Codec.emit_pend (v : Item) (k : Codec) : (k.emit v).pend = k.pend := rfl
@[simp] theorem Codec.emit_pendValid (v : Item) (k : Codec) : (k.emit v).pendValid = k.pendValid := rfl
@[simp] theorem Codec.emit_job (v : Item) (k : Codec) : (k.emit v).job = k.job := rfl
@[simp] theorem Codec.emit_cmds (v : Item) (k : Codec) : (k.emit v).cmds = k.cmds := rfl
@[simp] theorem Codec.emit_out (v : Item) (k : Codec) : (k.emit v).out = k.out ++ [v] := rfl

@[simp] theorem Codec.setJob_ps (j : Job) (k : Codec) : (k.setJob j).ps = k.ps := rfl
@[simp] theorem Codec.setJob_si (j : Job) (k : Codec) : (k.setJob j).si = k.si := rfl
@[simp] theorem Codec.setJob_pend (j : Job) (k : Codec) : (k.setJob j).pend = k.pend := rfl
@[simp] theorem Codec.setJob_pendValid (j : Job) (k : Codec) : (k.setJob j).pendValid = k.pendValid := rfl
@[simp] theorem Codec.setJob_job (j : Job) (k : Codec) : (k.setJob j).job = j := rfl
@[simp] theorem Codec.setJob_cmds (j : Job) (k : Codec) : (k.setJob j).cmds = k.cmds := rfl
@[simp] theorem Codec.setJob_out (j : Job) (k : Codec) : (k.setJob j).out = k.out := rfl

@[simp] theorem Codec.setCmds_ps (fs : List Frame) (k : Codec) : (k.setCmds fs).ps = k.ps := rfl
@[simp] theorem Codec.setCmds_si (fs : List Frame) (k : Codec) : (k.setCmds fs).si = k.si := rfl
@[simp] theorem Codec.setCmds_pend (fs : List Frame) (k : Codec) : (k.setCmds fs).pend = k.pend := rfl
@[simp] theorem Codec.setCmds_pendValid (fs : List Frame) (k : Codec) : (k.setCmds fs).pendValid = k.pendValid := rfl
@[simp] theorem Codec.setCmds_job (fs : List Frame) (k : Codec) : (k.setCmds fs).job = k.job := rfl
@[simp] theorem Codec.setCmds_cmds (fs : List Frame) (k : Codec) : (k.setCmds fs).cmds = fs := rfl
@[simp] theorem Codec.setCmds_out (fs : List Frame) (k : Codec) : (k.setCmds fs).out = k.out := rfl

@[simp] theorem Codec.clearPend_ps (k : Codec) : k.clearPend.ps = k.ps := rfl
@[simp] theorem Codec.clearPend_si (k : Codec) : k.clearPend.si = k.si := rfl
@[simp] theorem Codec.clearPend_pend (k : Codec) : k.clearPend.pend = k.pend := rfl
@[simp] theorem Codec.clearPend_pendValid (k : Codec) : k.clearPend.pendValid = false := rfl
@[simp] theorem Codec.clearPend_job (k : Codec) : k.clearPend.job = k.job := rfl
@[simp] theorem Codec.clearPend_cmds (k : Codec) : k.clearPend.cmds = k.cmds := rfl
@[simp] theorem Codec.clearPend_out (k : Codec) : k.clearPend.out = k.out := rfl

@[simp] theorem State.updCur_before (f : Codec → Codec) (s : State) : (s.updCur f).before = s.before := rfl
@[simp] theorem State.updCur_cur (f : Codec → Codec) (s : State) : (s.updCur f).cur = f s.cur := rfl
@[simp] theorem State.updCur_after (f : Codec → Codec) (s : State) : (s.updCur f).after = s.after := rfl
@[simp] theorem State.updCur_turns (f : Codec → Codec) (s : State) : (s.updCur f).turns = s.turns := rfl

@[simp] theorem State.updCur_updCur (f g : Codec → Codec) (s : State) :
    (s.updCur f).updCur g = s.updCur (fun k => g (f k)) := rfl

@[simp] theorem Codec.regs_setRegs (p : Sample) (i : StepIndex) (k : Codec) : (k.setRegs p i).regs = (p, i) := rfl
@[simp] theorem Codec.regs_emit (v : Item) (k : Codec) : (k.emit v).regs = k.regs := rfl
@[simp] theorem Codec.regs_setJob (j : Job) (k : Codec) : (k.setJob j).regs = k.regs := rfl
@[simp] theorem Codec.regs_setCmds (fs : List Frame) (k : Codec) : (k.setCmds fs).regs = k.regs := rfl
@[simp] theorem Codec.regs_clearPend (k : Codec) : k.clearPend.regs = k.regs := rfl

/-- Two instances agree on the register pair exactly when they agree on each register. -/
theorem Codec.regs_eq_iff (k l : Codec) : k.regs = l.regs ↔ k.ps = l.ps ∧ k.si = l.si := by
  simp [Codec.regs]

@[simp] theorem andThen_next (s : State) (f : State → Host.Outcome State Fault Refusal) :
    andThen (.next s) f = f s := rfl
@[simp] theorem andThen_refused (r : Refusal) (f : State → Host.Outcome State Fault Refusal) :
    andThen (.refused r) f = .refused r := rfl

/-- What `andThen` can answer: the second part's answer after a next state of the first, or the first part's stop. -/
theorem andThen_eq_next {o : Host.Outcome State Fault Refusal} {f : State → Host.Outcome State Fault Refusal}
    {t : State} : andThen o f = .next t ↔ ∃ s, o = .next s ∧ f s = .next t := by
  cases o <;> simp [andThen]

end Sys2Proof.Machine
end

