-- ==== Sys2Proof/Laws/Ops.lean ====
section
/-! SUPPORT. One lemma per shared operation, saying once what it does; provers cite these instead of unfolding. -/

namespace Sys2Proof.Machine

/-- RECON writes the two registers and nothing else. -/
theorem Codec.reconstruct_eq (negative : Bool) (d : Nat → Nat) (adj : Int) (k : Codec) :
    k.reconstruct negative d adj =
      { k with
        ps := clampPredictor (predictorSum negative k.ps.toInt (d (stepAt k.si)))
        si := clampIndex ((k.si.val : Int) + adj) } := rfl

@[simp] theorem Codec.recon_pend (c : Code) (k : Codec) : (k.recon c).pend = k.pend := rfl
@[simp] theorem Codec.recon_pendValid (c : Code) (k : Codec) : (k.recon c).pendValid = k.pendValid := rfl
@[simp] theorem Codec.recon_job (c : Code) (k : Codec) : (k.recon c).job = k.job := rfl
@[simp] theorem Codec.recon_cmds (c : Code) (k : Codec) : (k.recon c).cmds = k.cmds := rfl
@[simp] theorem Codec.recon_out (c : Code) (k : Codec) : (k.recon c).out = k.out := rfl

/-- RECON depends on the register pair alone. -/
theorem Codec.recon_regs_congr {k l : Codec} (h : k.regs = l.regs) (c : Code) :
    (k.recon c).regs = (l.recon c).regs := by
  obtain ⟨hp, hi⟩ := (Codec.regs_eq_iff k l).mp h
  simp [Codec.recon, Codec.reconstruct, hp, hi]

theorem Codec.codeFor_congr {k l : Codec} (h : k.regs = l.regs) (x : Sample) : k.codeFor x = l.codeFor x := by
  obtain ⟨hp, hi⟩ := (Codec.regs_eq_iff k l).mp h
  simp [Codec.codeFor, hp, hi]

/-- DEC_STEP writes the registers and delivers the new predictor. -/
theorem Codec.decStep_eq (c : Code) (k : Codec) :
    k.decStep c = { k.recon c with out := k.out ++ [.sample (k.recon c).ps] } := rfl

@[simp] theorem Codec.decStep_regs (c : Code) (k : Codec) : (k.decStep c).regs = (k.recon c).regs := rfl
@[simp] theorem Codec.decStep_pendValid (c : Code) (k : Codec) : (k.decStep c).pendValid = k.pendValid := rfl
@[simp] theorem Codec.decStep_job (c : Code) (k : Codec) : (k.decStep c).job = k.job := rfl
@[simp] theorem Codec.decStep_cmds (c : Code) (k : Codec) : (k.decStep c).cmds = k.cmds := rfl

/-- PACK with an empty buffer: the code is kept, nothing goes out. -/
theorem Codec.pack_of_not_valid {k : Codec} (h : k.pendValid = false) (c : Code) :
    k.pack c = { k with pend := c, pendValid := true } := by simp [Codec.pack, h]

/-- PACK with a code in the buffer: the byte goes out. -/
theorem Codec.pack_of_valid {k : Codec} (h : k.pendValid = true) (c : Code) :
    k.pack c = { k with pendValid := false, out := k.out ++ [.byte (packByte c k.pend)] } := by
  simp [Codec.pack, h, Codec.emit]

theorem Codec.flush_of_not_valid {k : Codec} (h : k.pendValid = false) : k.flush = k := by
  simp [Codec.flush, h]

theorem Codec.flush_of_valid {k : Codec} (h : k.pendValid = true) :
    k.flush = { k with pendValid := false, out := k.out ++ [.byte (packByte 0b0000#4 k.pend)] } := by
  simp [Codec.flush, h, Codec.emit]

@[simp] theorem Codec.pack_regs (c : Code) (k : Codec) : (k.pack c).regs = k.regs := by
  cases h : k.pendValid <;> simp [Codec.pack, h, Codec.regs, Codec.emit]
@[simp] theorem Codec.pack_pendValid (c : Code) (k : Codec) : (k.pack c).pendValid = !k.pendValid := by
  cases h : k.pendValid <;> simp [Codec.pack, h]
@[simp] theorem Codec.pack_job (c : Code) (k : Codec) : (k.pack c).job = k.job := by
  cases h : k.pendValid <;> simp [Codec.pack, h, Codec.emit]
@[simp] theorem Codec.pack_cmds (c : Code) (k : Codec) : (k.pack c).cmds = k.cmds := by
  cases h : k.pendValid <;> simp [Codec.pack, h, Codec.emit]

@[simp] theorem Codec.flush_regs (k : Codec) : k.flush.regs = k.regs := by
  cases h : k.pendValid <;> simp [Codec.flush, h, Codec.regs, Codec.emit]
@[simp] theorem Codec.flush_pendValid (k : Codec) : k.flush.pendValid = false := by
  cases h : k.pendValid <;> simp [Codec.flush, h]
@[simp] theorem Codec.flush_job (k : Codec) : k.flush.job = k.job := by
  cases h : k.pendValid <;> simp [Codec.flush, h, Codec.emit]
@[simp] theorem Codec.flush_cmds (k : Codec) : k.flush.cmds = k.cmds := by
  cases h : k.pendValid <;> simp [Codec.flush, h, Codec.emit]

/-- What one sample of an ENCODE does to each field but `pend` and `out`. -/
@[simp] theorem Codec.encodeSample_regs (x : Sample) (k : Codec) :
    (k.encodeSample x).regs = (k.recon (k.codeFor x)).regs := by simp [Codec.encodeSample]
@[simp] theorem Codec.encodeSample_pendValid (x : Sample) (k : Codec) :
    (k.encodeSample x).pendValid = !k.pendValid := by simp [Codec.encodeSample]
@[simp] theorem Codec.encodeSample_job (x : Sample) (k : Codec) : (k.encodeSample x).job = k.job := by
  simp [Codec.encodeSample]
@[simp] theorem Codec.encodeSample_cmds (x : Sample) (k : Codec) : (k.encodeSample x).cmds = k.cmds := by
  simp [Codec.encodeSample]

/-- The operations of one micro-step do not look at the running command or at the waiting frames. -/
theorem Codec.recon_setJob (c : Code) (j : Job) (k : Codec) : (k.setJob j).recon c = (k.recon c).setJob j := rfl
theorem Codec.decStep_setJob (c : Code) (j : Job) (k : Codec) : (k.setJob j).decStep c = (k.decStep c).setJob j := rfl
theorem Codec.pack_setJob (c : Code) (j : Job) (k : Codec) : (k.setJob j).pack c = (k.pack c).setJob j := by
  cases h : k.pendValid <;> simp [Codec.pack, h, Codec.emit, Codec.setJob]
theorem Codec.flush_setJob (j : Job) (k : Codec) : (k.setJob j).flush = k.flush.setJob j := by
  cases h : k.pendValid <;> simp [Codec.flush, h, Codec.emit, Codec.setJob]
theorem Codec.encodeSample_setJob (x : Sample) (j : Job) (k : Codec) :
    (k.setJob j).encodeSample x = (k.encodeSample x).setJob j := by
  unfold Codec.encodeSample
  exact Codec.pack_setJob (k.codeFor x) j (k.recon (k.codeFor x))

@[simp] theorem Codec.setJob_setJob (i j : Job) (k : Codec) : (k.setJob i).setJob j = k.setJob j := rfl
@[simp] theorem Codec.setJob_self (k : Codec) : k.setJob k.job = k := rfl

theorem Codec.encodeSamples_append (xs ys : List Sample) (k : Codec) :
    Codec.encodeSamples (xs ++ ys) k = Codec.encodeSamples ys (Codec.encodeSamples xs k) := by
  induction xs generalizing k with
  | nil => rfl
  | cons x rest ih => exact ih (k.encodeSample x)

theorem Codec.decodeBytes_append (xs ys : List Byte) (k : Codec) :
    Codec.decodeBytes (xs ++ ys) k = Codec.decodeBytes ys (Codec.decodeBytes xs k) := by
  induction xs generalizing k with
  | nil => rfl
  | cons b rest ih => exact ih (k.decodeByte b)

theorem Codec.decSteps_append (cs ds : List Code) (k : Codec) :
    Codec.decSteps (cs ++ ds) k = Codec.decSteps ds (Codec.decSteps cs k) := by
  induction cs generalizing k with
  | nil => rfl
  | cons c rest ih => exact ih (k.decStep c)

/-- The new predictor, read as an integer (40_common_datapath.md R74). -/
theorem Codec.recon_ps_toInt (code : Code) (k : Codec) :
    (k.recon code).ps.toInt =
      max (-32768) (min 32767 (predictorSum code[3] k.ps.toInt (dq code (stepAt k.si)))) := by
  rw [Codec.recon, Codec.reconstruct_eq]
  exact clampPredictor_toInt _

/-- The new index, read as an integer (40_common_datapath.md R75). -/
theorem Codec.recon_si_val (c : Code) (k : Codec) :
    ((k.recon c).si.val : Int) = max 0 (min 88 ((k.si.val : Int) + indexAt c)) := by
  rw [Codec.recon, Codec.reconstruct_eq]
  exact clampIndex_val _

theorem Codec.reconAll_congr {k l : Codec} (h : k.regs = l.regs) (cs : List Code) :
    (Codec.reconAll cs k).regs = (Codec.reconAll cs l).regs := by
  induction cs generalizing k l with
  | nil => exact h
  | cons c rest ih => exact ih (Codec.recon_regs_congr h c)

theorem Codec.reconAll_append (cs ds : List Code) (k : Codec) :
    Codec.reconAll (cs ++ ds) k = Codec.reconAll ds (Codec.reconAll cs k) := by
  induction cs generalizing k with
  | nil => rfl
  | cons c rest ih => exact ih (k.recon c)

theorem codesOf_congr {k l : Codec} (h : k.regs = l.regs) (xs : List Sample) : codesOf xs k = codesOf xs l := by
  induction xs generalizing k l with
  | nil => rfl
  | cons x rest ih =>
    simp only [codesOf]
    rw [Codec.codeFor_congr h, ih (Codec.recon_regs_congr h (l.codeFor x))]

theorem codesOf_append (xs ys : List Sample) (k : Codec) :
    codesOf (xs ++ ys) k = codesOf xs k ++ codesOf ys (Codec.reconAll (codesOf xs k) k) := by
  induction xs generalizing k with
  | nil => rfl
  | cons x rest ih => simp [codesOf, ih, Codec.reconAll]

/-- The loop of ENCODE leaves the registers that RECON of its codes leaves. -/
theorem Codec.encodeSamples_regs (xs : List Sample) (k : Codec) :
    (Codec.encodeSamples xs k).regs = (Codec.reconAll (codesOf xs k) k).regs := by
  induction xs generalizing k with
  | nil => rfl
  | cons x rest ih =>
    rw [Codec.encodeSamples, ih, codesOf_congr (l := k.recon (k.codeFor x)) (by simp)]
    exact Codec.reconAll_congr (by simp) _

theorem Codec.encodeSamples_setJob (xs : List Sample) (j : Job) (k : Codec) :
    Codec.encodeSamples xs (k.setJob j) = (Codec.encodeSamples xs k).setJob j := by
  induction xs generalizing k with
  | nil => rfl
  | cons x rest ih => rw [Codec.encodeSamples, Codec.encodeSample_setJob, ih]; rfl

/-- The loop of DECODE is DEC_STEP of the nibbles, low before high. -/
theorem Codec.decodeBytes_eq_decSteps (bs : List Byte) (k : Codec) :
    Codec.decodeBytes bs k = Codec.decSteps (bs.flatMap (fun b => [lowNibble b, highNibble b])) k := by
  induction bs generalizing k with
  | nil => rfl
  | cons b rest ih => rw [Codec.decodeBytes, ih]; rfl

theorem Codec.decSteps_setJob (cs : List Code) (j : Job) (k : Codec) :
    Codec.decSteps cs (k.setJob j) = (Codec.decSteps cs k).setJob j := by
  induction cs generalizing k with
  | nil => rfl
  | cons c rest ih => rw [Codec.decSteps, Codec.decStep_setJob, ih]; rfl

@[simp] theorem codesOf_length (xs : List Sample) (k : Codec) : (codesOf xs k).length = xs.length := by
  induction xs generalizing k with
  | nil => rfl
  | cons x rest ih => simp [codesOf, ih]

@[simp] theorem predictorsOf_length (xs : List Sample) (k : Codec) : (predictorsOf xs k).length = xs.length := by
  induction xs generalizing k with
  | nil => rfl
  | cons x rest ih => simp [predictorsOf, ih]

/-- `focus` answers exactly for the numbers of existing instances. -/
theorem State.focus_eq_none {n : Nat} {s : State} : s.focus n = none ↔ s.all.length ≤ n := by
  unfold State.focus
  cases h : s.all.drop n with
  | nil => simpa using h
  | cons k rest =>
    have : s.all.drop n ≠ [] := by simp [h]
    simpa using this

/-- What `focus` does: it moves the selection and changes no instance. -/
theorem State.focus_spec {n : Nat} {s t : State} (h : s.focus n = some t) :
    t.all = s.all ∧ t.before.length = n ∧ s.all[n]? = some t.cur ∧ t.turns = s.turns := by
  unfold State.focus at h
  cases hd : s.all.drop n with
  | nil => simp [hd] at h
  | cons k rest =>
    have hlt : n < s.all.length := by
      have : s.all.drop n ≠ [] := by simp [hd]
      simpa using this
    simp only [hd, Option.some.injEq] at h
    subst h
    refine ⟨?_, ?_, ?_, rfl⟩
    · simp [State.all, ← hd]
    · simp [Nat.min_eq_left (Nat.le_of_lt hlt)]
    · have := congrArg (·[0]?) hd
      simpa using this

/-- `focus` on an existing instance selects it. -/
theorem State.focus_of_getElem? {n : Nat} {s : State} {k : Codec} (h : s.all[n]? = some k) :
    ∃ u, s.focus n = some u ∧ u.cur = k := by
  cases hf : s.focus n with
  | none => rw [State.focus_eq_none] at hf; rw [List.getElem?_eq_none hf] at h; cases h
  | some u =>
    refine ⟨u, rfl, ?_⟩
    have := (State.focus_spec hf).2.2.1
    rw [h] at this
    simpa using this.symm

/-- What the caller's turn can be: the selected instance stays, or an existing one is selected and its turn is taken
off the list. -/
theorem State.takeTurn_cases {s t : State} (h : s.takeTurn = .next t) :
    (s.turns = [] ∧ t = s) ∨
    (∃ n ns u, s.turns = n :: ns ∧ s.focus n = some u ∧ t = { u with turns := ns }) := by
  unfold State.takeTurn at h
  cases hs : s.turns with
  | nil => simp [hs] at h; exact .inl ⟨rfl, h.symm⟩
  | cons n ns =>
    cases hf : s.focus n with
    | none => simp [hs, hf] at h
    | some u => simp [hs, hf] at h; exact .inr ⟨n, ns, u, rfl, hf, h.symm⟩

end Sys2Proof.Machine
end

