-- ==== Sys2Proof/Laws/PerInstr.lean ====
section
/-! SUPPORT. The family EncodedForm: what the encoder gives each instruction is well formed, a code for the sixteen
codes and a command frame for the four commands. -/

namespace Sys2Proof.Laws

/-- A framed operand has its `last` mark on the final item only. -/
theorem marksWellFormed_framed {α : Type} (put : α → Item) (vs : List α) : marksWellFormed (framed put vs) = true := by
  induction vs with
  | nil => rfl
  | cons v rest ih =>
    cases rest with
    | nil => rfl
    | cons w more => simpa [framed, marksWellFormed] using ih

/-- A framed operand holds the items it was made from. -/
theorem all_framed {α : Type} (put : α → Item) (p : Item → Bool) (h : ∀ v, p (put v) = true) (vs : List α) :
    (framed put vs).all (fun b => p b.item) = true := by
  induction vs with
  | nil => rfl
  | cons v rest ih => simp [framed, h, ih]

namespace EncodedForm

/-- The opcode table's format of an instruction: CODE4 or CMD2 (30_encoding.md R50). -/
def isCode4 : Encoded → Bool
  | .code _ => true
  | .command _ => false

/-- Whether an instruction is one of the sixteen codes (30_encoding.md R57). -/
def isCodeRow : Instr → Bool
  | .idle => false
  | .reset => false
  | .encode _ => false
  | .decode _ => false
  | _ => true

def Statement (i : Instr) : Prop :=
  (Sys2Proof.encode i).wellFormed = true ∧ isCode4 (Sys2Proof.encode i) = isCodeRow i

theorem p0 : Statement .p0 := ⟨rfl, rfl⟩
theorem p1 : Statement .p1 := ⟨rfl, rfl⟩
theorem p2 : Statement .p2 := ⟨rfl, rfl⟩
theorem p3 : Statement .p3 := ⟨rfl, rfl⟩
theorem p4 : Statement .p4 := ⟨rfl, rfl⟩
theorem p5 : Statement .p5 := ⟨rfl, rfl⟩
theorem p6 : Statement .p6 := ⟨rfl, rfl⟩
theorem p7 : Statement .p7 := ⟨rfl, rfl⟩
theorem n0 : Statement .n0 := ⟨rfl, rfl⟩
theorem n1 : Statement .n1 := ⟨rfl, rfl⟩
theorem n2 : Statement .n2 := ⟨rfl, rfl⟩
theorem n3 : Statement .n3 := ⟨rfl, rfl⟩
theorem n4 : Statement .n4 := ⟨rfl, rfl⟩
theorem n5 : Statement .n5 := ⟨rfl, rfl⟩
theorem n6 : Statement .n6 := ⟨rfl, rfl⟩
theorem n7 : Statement .n7 := ⟨rfl, rfl⟩
theorem idle : Statement .idle := ⟨rfl, rfl⟩
theorem reset : Statement .reset := ⟨rfl, rfl⟩

theorem encode (samples : List Sample) : Statement (.encode samples) :=
  ⟨by simp [Sys2Proof.encode, Encoded.wellFormed, Frame.wellFormed, Frame.operandWellFormed,
      marksWellFormed_framed, all_framed Item.sample Item.isSample (fun _ => rfl)], rfl⟩

theorem decode (bytes : List Byte) : Statement (.decode bytes) :=
  ⟨by simp [Sys2Proof.encode, Encoded.wellFormed, Frame.wellFormed, Frame.operandWellFormed,
      marksWellFormed_framed, all_framed Item.byte Item.isByte (fun _ => rfl)], rfl⟩

end EncodedForm

end Sys2Proof.Laws
end

