-- ==== Sys2Proof/Laws/Step.lean ====
section
/-! SUPPORT. What a micro-step and a step can do, said once. -/

namespace Sys2Proof.Machine

/-- A code answers a next state: the selected instance reconstructs and delivers. -/
theorem exec_code_next (c : Code) :
    ∃ negative d adj, ∀ s, exec (decodeCode c) s = .next (codeStep negative d adj s) := by
  unfold decodeCode
  split <;> exact ⟨_, _, _, fun _ => rfl⟩

/-- Every instruction is a function of the selected instance, applied to it. -/
theorem exec_local (i : Instr) : ∃ f : Codec → Codec, ∀ s, exec i s = .next (s.updCur f) := by
  cases i <;> first | exact ⟨_, fun _ => rfl⟩ | exact ⟨id, fun _ => rfl⟩

/-- Accepting an instruction is a function of the selected instance, applied to it. -/
theorem accept_local (i : Instr) : ∃ f : Codec → Codec, ∀ s, accept i s = .next (s.updCur f) := by
  cases i with
  | encode xs => cases xs <;> exact ⟨_, fun _ => rfl⟩
  | decode bs => cases bs <;> exact ⟨_, fun _ => rfl⟩
  | idle => exact exec_local .idle
  | reset => exact exec_local .reset
  | p0 => exact exec_local .p0
  | p1 => exact exec_local .p1
  | p2 => exact exec_local .p2
  | p3 => exact exec_local .p3
  | p4 => exact exec_local .p4
  | p5 => exact exec_local .p5
  | p6 => exact exec_local .p6
  | p7 => exact exec_local .p7
  | n0 => exact exec_local .n0
  | n1 => exact exec_local .n1
  | n2 => exact exec_local .n2
  | n3 => exact exec_local .n3
  | n4 => exact exec_local .n4
  | n5 => exact exec_local .n5
  | n6 => exact exec_local .n6
  | n7 => exact exec_local .n7

/-- A micro-step depends on the selected instance alone, and changes it alone. -/
theorem microStep_local {s t u : State} (h : microStep s = .next t) (hu : u.cur = s.cur) :
    microStep u = .next { u with cur := t.cur } := by
  unfold microStep at h ⊢
  rw [hu]
  cases hj : s.cur.job with
  | idle =>
    rw [hj] at h
    simp only at h ⊢
    unfold issue at h ⊢
    rw [hu]
    cases hc : s.cur.cmds with
    | nil => rw [hc] at h; simp [exec, execIdle] at h ⊢; subst h; rw [← hu]
    | cons f fs =>
      rw [hc] at h
      simp only at h ⊢
      cases hd : decodeFrame f with
      | error e => rw [hd] at h; cases h
      | ok i =>
        rw [hd] at h
        simp only at h ⊢
        obtain ⟨g, hg⟩ := accept_local i
        rw [hg] at h ⊢
        injection h with h
        subst h
        simp [State.updCur, hu]
  | encoding pos rest =>
    rw [hj] at h; injection h with h; subst h; simp [State.updCur, hu]
  | decoding pos rest nibble =>
    rw [hj] at h
    cases rest with
    | nil => injection h with h; subst h; simp [decodeNext, State.updCur, hu]
    | cons b more =>
      simp only [decodeNext] at h ⊢
      obtain ⟨g, hg⟩ := exec_local (decodeCode (fetchNibble b nibble))
      rw [hg] at h ⊢
      injection h with h
      subst h
      simp [State.updCur, hu]

/-- A micro-step is refused for what the selected instance alone shows. -/
theorem microStep_refused_local {s u : State} {r : Refusal} (h : microStep s = .refused r) (hu : u.cur = s.cur) :
    microStep u = .refused r := by
  unfold microStep at h ⊢
  rw [hu]
  cases hj : s.cur.job with
  | idle =>
    rw [hj] at h
    simp only at h ⊢
    unfold issue at h ⊢
    rw [hu]
    cases hc : s.cur.cmds with
    | nil => rw [hc] at h; cases h
    | cons f fs =>
      rw [hc] at h
      simp only at h ⊢
      cases hd : decodeFrame f with
      | error e => rw [hd] at h; exact h
      | ok i =>
        rw [hd] at h
        obtain ⟨g, hg⟩ := accept_local i
        simp only [hg] at h
        cases h
  | encoding pos rest => rw [hj] at h; cases h
  | decoding pos rest nibble =>
    rw [hj] at h
    cases rest with
    | nil => cases h
    | cons b more =>
      obtain ⟨g, hg⟩ := exec_local (decodeCode (fetchNibble b nibble))
      simp only [decodeNext, hg] at h
      cases h

/-- The micro-steps, one case each, with what the selected instance becomes. -/
theorem microStep_cases {s t : State} (h : microStep s = .next t) :
    (s.cur.job = .idle ∧ issue s = .next t) ∨
    (∃ pos rest, s.cur.job = .encoding pos rest ∧ t = s.updCur (Codec.encodeNext pos rest)) ∨
    (∃ pos nibble, s.cur.job = .decoding pos [] nibble ∧ t = s.updCur (Codec.setJob .idle)) ∨
    (∃ pos b more nibble u, s.cur.job = .decoding pos (b :: more) nibble ∧
      exec (decodeCode (fetchNibble b nibble)) s = .next u ∧
      t = u.updCur (Codec.setJob (decodeAdvance pos b more nibble))) := by
  unfold microStep at h
  cases hj : s.cur.job with
  | idle => rw [hj] at h; exact .inl ⟨rfl, h⟩
  | encoding pos rest =>
    rw [hj] at h
    simp only [Host.Outcome.next.injEq] at h
    exact .inr (.inl ⟨pos, rest, rfl, h.symm⟩)
  | decoding pos rest nibble =>
    rw [hj] at h
    cases rest with
    | nil =>
      simp only [decodeNext, Host.Outcome.next.injEq] at h
      exact .inr (.inr (.inl ⟨pos, nibble, rfl, h.symm⟩))
    | cons b more =>
      simp only [decodeNext, andThen_eq_next, Host.Outcome.next.injEq] at h
      obtain ⟨u, hu, ht⟩ := h
      exact .inr (.inr (.inr ⟨pos, b, more, nibble, u, rfl, hu, ht.symm⟩))

/-- What accepting the next frame can be, one case each. -/
theorem issue_cases {s t : State} (h : issue s = .next t) :
    (s.cur.cmds = [] ∧ exec .idle s = .next t) ∨
    (∃ f fs i, s.cur.cmds = f :: fs ∧ decodeFrame f = .ok i ∧ accept i (s.updCur (Codec.setCmds fs)) = .next t) := by
  unfold issue at h
  cases hc : s.cur.cmds with
  | nil => rw [hc] at h; exact .inl ⟨rfl, h⟩
  | cons f fs =>
    rw [hc] at h
    cases hd : decodeFrame f with
    | error e => simp [hd] at h
    | ok i => simp only [hd] at h; exact .inr ⟨f, fs, i, rfl, hd, h⟩

/-- A frame encodes a command, never a code. -/
theorem decodeFrame_command {f : Frame} {i : Instr} (h : decodeFrame f = .ok i) :
    i = .idle ∨ i = .reset ∨ (∃ xs, i = .encode xs) ∨ (∃ bs, i = .decode bs) := by
  unfold decodeFrame at h
  cases ho : decodeOp f.op with
  | idle =>
    simp only [ho] at h
    split at h
    · exact .inl (by simpa using h.symm)
    · cases h
  | reset =>
    simp only [ho] at h
    split at h
    · exact .inr (.inl (by simpa using h.symm))
    · cases h
  | encode =>
    simp only [ho] at h
    cases hu : unframe Item.sample? f.beats with
    | error e => simp [hu, Except.map] at h
    | ok xs => simp [hu, Except.map] at h; exact .inr (.inr (.inl ⟨xs, h.symm⟩))
  | decode =>
    simp only [ho] at h
    cases hu : unframe Item.byte? f.beats with
    | error e => simp [hu, Except.map] at h
    | ok bs => simp [hu, Except.map] at h; exact .inr (.inr (.inr ⟨bs, h.symm⟩))

/-- What accepting a command does to the selected instance, one case each. -/
theorem accept_command_cases {i : Instr} {s t : State} (h : accept i s = .next t)
    (hi : i = .idle ∨ i = .reset ∨ (∃ xs, i = .encode xs) ∨ (∃ bs, i = .decode bs)) :
    (i = .idle ∧ t = s) ∨
    (i = .reset ∧ t = s.updCur (Codec.setRegs 0#16 0)) ∨
    (i = .encode [] ∧ t = s.updCur (fun k => k.clearPend.flush)) ∨
    (∃ x rest, i = .encode (x :: rest) ∧ t = s.updCur (fun k => k.clearPend.setJob (.encoding 0 (x :: rest)))) ∨
    (i = .decode [] ∧ t = s) ∨
    (∃ b rest, i = .decode (b :: rest) ∧ t = s.updCur (Codec.setJob (.decoding 0 (b :: rest) .low))) := by
  obtain rfl | rfl | ⟨xs, rfl⟩ | ⟨bs, rfl⟩ := hi
  · left; exact ⟨rfl, by simpa [accept, exec, execIdle] using h.symm⟩
  · right; left; exact ⟨rfl, by simpa [accept, exec, execReset] using h.symm⟩
  · cases xs with
    | nil =>
      right; right; left
      exact ⟨rfl, by simpa [accept, exec, execEncode, Codec.encodeSamples] using h.symm⟩
    | cons x rest =>
      right; right; right; left
      exact ⟨x, rest, rfl, by simpa [accept] using h.symm⟩
  · cases bs with
    | nil =>
      right; right; right; right; left
      exact ⟨rfl, by simpa [accept, exec, execDecode, State.updCur, Codec.decodeBytes] using h.symm⟩
    | cons b rest =>
      right; right; right; right; right
      exact ⟨b, rest, rfl, by simpa [accept] using h.symm⟩

/-- A step is a turn and then a micro-step of the selected instance. -/
theorem step_cases {s t : State} (h : step s = .next t) :
    ∃ u, s.takeTurn = .next u ∧ microStep u = .next t := andThen_eq_next.mp h

/-- With no turn listed, the selected instance moves. -/
theorem step_of_no_turns {s : State} (h : s.turns = []) : step s = microStep s := by
  simp [step, State.takeTurn, h]

/-- With a turn listed that names an instance, that instance is selected, the turn is taken off, and it moves. -/
theorem step_of_turn {s u : State} {n : Nat} {ns : List Nat} (h : s.turns = n :: ns) (hf : s.focus n = some u) :
    step s = microStep { u with turns := ns } := by
  simp [step, State.takeTurn, h, hf]

@[simp] theorem runSteps_zero (s : State) : runSteps 0 s = .next s := rfl

/-- A run is a step and then the rest of the run. -/
theorem runSteps_succ (n : Nat) (s : State) : runSteps (n + 1) s = andThen (step s) (runSteps n) := by
  refine Eq.trans (Host.Core.run.eq_2 Sys2Proof.core s n) ?_
  change _ = andThen (Sys2Proof.core.step s) _
  cases Sys2Proof.core.step s <;> rfl

theorem runSteps_succ_of_next {n : Nat} {s t : State} (h : step s = .next t) :
    runSteps (n + 1) s = runSteps n t := by
  rw [runSteps_succ, h, andThen_next]

end Sys2Proof.Machine
end

