-- ==== Sys2Proof/Certificates/Slice0/Obligations.lean ====
section
/-! DEFINITION. The statements, from the numbered rules of spec/. Each docstring names the rules it formalises; a
statement that rests on a choice of the model says so and names the log entry. -/

open Sys2Proof Sys2Proof.Machine

/-- The rule of one code (43_decode.md R99 to R114): its four bits, its INDEX word, and what it does in every state
of every system. `d` is the rule's `d` line as a function of `e`, `q`, `h` and `step`; the sign is 1 for "added" and
-1 for "subtracted". Nothing else of the state changes. -/
def CodeRule (bits : Code) (i : Instr) (sign : Int) (d : Nat → Nat → Nat → Nat → Nat) (adj : Int) : Prop :=
  decode (.code bits) = .ok i ∧ indexAt bits = adj ∧
  ∀ s : State, ∃ (p : Sample) (x : StepIndex),
    exec i s =
      .next { s with cur := { s.cur with ps := p, si := x, out := s.cur.out ++ [.sample p] } } ∧
    p.toInt =
      max (-32768) (min 32767 (s.cur.ps.toInt + sign *
        d (stepAt s.cur.si / 8) (stepAt s.cur.si / 4) (stepAt s.cur.si / 2) (stepAt s.cur.si))) ∧
    (x.val : Int) = max 0 (min 88 ((s.cur.si.val : Int) + adj))

/-- Codes P0 to P7: the difference is added (43_decode.md R99 to R106). The table words are those the rules name;
log entry 1 says what they are worth. -/
def Obligations.NonNegativeCodesAddTheirDifference : Prop :=
  CodeRule 0b0000#4 .p0 1 (fun e _ _ _ => e) (-1) ∧
  CodeRule 0b0001#4 .p1 1 (fun e q _ _ => e + q) (-1) ∧
  CodeRule 0b0010#4 .p2 1 (fun e _ h _ => e + h) (-1) ∧
  CodeRule 0b0011#4 .p3 1 (fun e q h _ => e + h + q) (-1) ∧
  CodeRule 0b0100#4 .p4 1 (fun e _ _ step => e + step) 2 ∧
  CodeRule 0b0101#4 .p5 1 (fun e q _ step => e + step + q) 4 ∧
  CodeRule 0b0110#4 .p6 1 (fun e _ h step => e + step + h) 6 ∧
  CodeRule 0b0111#4 .p7 1 (fun e q h step => e + step + h + q) 8

/-- Codes N0 to N7: the difference is subtracted (43_decode.md R107 to R114). -/
def Obligations.NegativeCodesSubtractTheirDifference : Prop :=
  CodeRule 0b1000#4 .n0 (-1) (fun e _ _ _ => e) (-1) ∧
  CodeRule 0b1001#4 .n1 (-1) (fun e q _ _ => e + q) (-1) ∧
  CodeRule 0b1010#4 .n2 (-1) (fun e _ h _ => e + h) (-1) ∧
  CodeRule 0b1011#4 .n3 (-1) (fun e q h _ => e + h + q) (-1) ∧
  CodeRule 0b1100#4 .n4 (-1) (fun e _ _ step => e + step) 2 ∧
  CodeRule 0b1101#4 .n5 (-1) (fun e q _ step => e + step + q) 4 ∧
  CodeRule 0b1110#4 .n6 (-1) (fun e _ h step => e + step + h) 6 ∧
  CodeRule 0b1111#4 .n7 (-1) (fun e q h step => e + step + h + q) 8

/-- The sixteen meanings, each written from its own rule, are DEC_STEP written out (43_decode.md R98, which marks
the `d` lines of R99 to R114 as derived). -/
def Obligations.SixteenCodesAreDecStepWrittenOut : Prop :=
  ∀ (c : Code) (s : State), exec (decodeCode c) s = .next (s.updCur (Codec.decStep c))

/-- RESET (41_reset.md R85): the select value, the two registers of the one instance, nothing else, in every state.
-/
def Obligations.ResetWritesZeroToBothRegisters : Prop :=
  decode (.command ⟨0b01#2, []⟩) = .ok .reset ∧
  (∀ s : State, exec .reset s = .next { s with cur := { s.cur with ps := 0#16, si := 0 } })

/-- IDLE (41_reset.md R86): the select value, and the identity on states. -/
def Obligations.IdleIsTheIdentity : Prop :=
  decode (.command ⟨0b00#2, []⟩) = .ok .idle ∧
  (∀ s : State, exec .idle s = .next s)

/-- The reset state: after creation and after RESET both registers are 0, and at creation the packer is empty
(70_reset_and_hazards.md R136, R137; 10_state.md R21). That power-on counts as creation, and that the packer is
empty then, are choices (log entries 4, 5). -/
def Obligations.PowerOnAndResetGiveTheFreshRegisters : Prop :=
  (∀ k ∈ State.reset.all, k.ps = 0#16 ∧ k.si = 0 ∧ k.pendValid = false ∧ k.job = .idle) ∧
  (∀ s : State, ∃ t, exec .reset s = .next t ∧ t.cur.ps = 0#16 ∧ t.cur.si = 0)

/-- ENCODE (42_encode.md R91): it completes in every state on every input; it leaves the registers that RECON of its
codes leaves, an empty packer, and `ceil(n / 2)` bytes more in the output, byte `k` being `c_(2k) | (c_(2k+1) << 4)`
with `c_n` taken as 0; nothing else changes, except that `pend` is left unspecified (10_state.md R14). -/
def Obligations.EncodeEmitsItsCodesInPairs : Prop :=
  decode (.command ⟨0b10#2, []⟩) = .ok (.encode []) ∧
  ∀ (xs : List Sample) (s : State), ∃ (bytes : List Byte) (held : Code),
    exec (.encode xs) s =
      .next { s with
        cur := { s.cur with
          ps := (Codec.reconAll (codesOf xs s.cur) s.cur).ps
          si := (Codec.reconAll (codesOf xs s.cur) s.cur).si
          pend := held
          pendValid := false
          out := s.cur.out ++ bytes.map .byte } } ∧
    bytes.length = (xs.length + 1) / 2 ∧
    ∀ (k : Nat) (b : Byte), bytes[k]? = some b →
      b.toNat = ((codesOf xs s.cur).getD (2 * k) 0#4).toNat |||
        (((codesOf xs s.cur).getD (2 * k + 1) 0#4).toNat <<< 4)

/-- DECODE (43_decode.md R115): it completes in every state on every input; it executes the low nibble and then the
high nibble of every byte; sample `j` of the `2m` it emits is the predictor after `j + 1` codes; the registers are
those after all codes; nothing else changes. -/
def Obligations.DecodeEmitsThePredictorAfterEachNibble : Prop :=
  decode (.command ⟨0b11#2, []⟩) = .ok (.decode []) ∧
  ∀ (bs : List Byte) (s : State), ∃ samples : List Sample,
    exec (.decode bs) s =
      .next { s with
        cur := { s.cur with
          ps := (Codec.reconAll (bs.flatMap (fun b => [lowNibble b, highNibble b])) s.cur).ps
          si := (Codec.reconAll (bs.flatMap (fun b => [lowNibble b, highNibble b])) s.cur).si
          out := s.cur.out ++ samples.map .sample } } ∧
    samples.length = 2 * bs.length ∧
    ∀ (j : Nat) (v : Sample), samples[j]? = some v →
      v = (Codec.reconAll ((bs.flatMap (fun b => [lowNibble b, highNibble b])).take (j + 1)) s.cur).ps

/-- QUANT in closed form (42_encode.md R94, which the spec marks as derived): for any sample, predictor and index,
the magnitude is the number of the interval that holds `a = abs(s - p)`, the sign bit is set exactly when `s < p`,
and the intervals are non-empty and in order. -/
def Obligations.QuantMagnitudeIsTheIntervalNumber : Prop :=
  ∀ (x p : Sample) (i : StepIndex) (step q h : Nat), stepAt i = step → step / 4 = q → step / 2 = h →
    ∀ (a : Nat) (code : Code), (x.toInt - p.toInt).natAbs = a → quant x.toInt p.toInt step = code →
      (code[3] = true ↔ x.toInt < p.toInt) ∧
      (code.toNat % 8 = 0 ↔ a < q) ∧
      (code.toNat % 8 = 1 ↔ q ≤ a ∧ a < h) ∧
      (code.toNat % 8 = 2 ↔ h ≤ a ∧ a < h + q) ∧
      (code.toNat % 8 = 3 ↔ h + q ≤ a ∧ a < step) ∧
      (code.toNat % 8 = 4 ↔ step ≤ a ∧ a < step + q) ∧
      (code.toNat % 8 = 5 ↔ step + q ≤ a ∧ a < step + h) ∧
      (code.toNat % 8 = 6 ↔ step + h ≤ a ∧ a < step + h + q) ∧
      (code.toNat % 8 = 7 ↔ step + h + q ≤ a) ∧
      1 ≤ q ∧ q ≤ h ∧ h + q < step

/-- CLAMP saturates and never wraps (40_common_datapath.md R70). -/
def Obligations.ClampSaturates : Prop :=
  ∀ v lo hi : Int, lo ≤ hi →
    (v < lo → clamp v lo hi = lo) ∧ (v > hi → clamp v lo hi = hi) ∧
    (lo ≤ v → v ≤ hi → clamp v lo hi = v) ∧ lo ≤ clamp v lo hi ∧ clamp v lo hi ≤ hi

/-- The properties of the two tables that other rules rely on (20_memory.md R29, which the spec marks as derived
from the table values; log entry 1). -/
def Obligations.TableProperties : Prop :=
  (∀ a : StepIndex, 7 ≤ stepAt a ∧ stepAt a ≤ 32767 ∧ 1 ≤ stepAt a >>> 2) ∧
  (∀ a b : StepIndex, a < b → stepAt a < stepAt b) ∧
  (stepAt 0 = 7 ∧ ∀ a : StepIndex, stepAt a >>> 3 = 0 ↔ a = 0) ∧
  stepAt 88 = 32767 ∧
  (∀ c : Code, -1 ≤ indexAt c ∧ indexAt c ≤ 8 ∧ (indexAt c = -1 ↔ c.toNat % 8 ≤ 3) ∧
    (4 ≤ c.toNat % 8 → indexAt c = 2 * ((c.toNat % 8 : Int) - 3)))

/-- The reconstructed difference is a sum of shifts, not the product form (40_common_datapath.md R80, whose counts
the spec marks as derived): the two differ at step 7 as listed, and at 202 of the 712 pairs of step and magnitude.
-/
def Obligations.DifferenceIsNotTheProductForm : Prop :=
  ((List.range 8).map (fun m => dq (BitVec.ofNat 4 m) 7) = [0, 1, 3, 4, 7, 8, 10, 11]) ∧
  ((List.range 8).map (fun m => ((2 * m + 1) * 7) >>> 3) = [0, 2, 4, 6, 7, 9, 11, 13]) ∧
  ((stepTable.map (fun step =>
      (List.range 8).countP (fun m => dq (BitVec.ofNat 4 m) step != ((2 * m + 1) * step) >>> 3))).sum = 202) ∧
  (8 * stepTable.length = 712)

/-- The ranges of the intermediates, each bound attained (40_common_datapath.md R79, which the spec marks as
derived). -/
def Obligations.IntermediatesStayInTheirRanges : Prop :=
  (∀ x p : Sample, -65535 ≤ x.toInt - p.toInt ∧ x.toInt - p.toInt ≤ 65535) ∧
  (∃ x p : Sample, x.toInt - p.toInt = 65535) ∧ (∃ x p : Sample, x.toInt - p.toInt = -65535) ∧
  (∀ i : StepIndex, 7 ≤ stepAt i ∧ stepAt i ≤ 32767) ∧ stepAt 0 = 7 ∧ stepAt 88 = 32767 ∧
  (∀ (code : Code) (i : StepIndex), dq code (stepAt i) ≤ 61436) ∧
  (dq 0b0000#4 7 = 0 ∧ dq 0b0111#4 32767 = 61436) ∧
  (∀ (code : Code) (i : StepIndex) (p : Sample),
    -94204 ≤ predictorSum (code[3]) p.toInt (dq code (stepAt i)) ∧
    predictorSum (code[3]) p.toInt (dq code (stepAt i)) ≤ 94203) ∧
  (∃ (code : Code) (i : StepIndex) (p : Sample), predictorSum (code[3]) p.toInt (dq code (stepAt i)) = -94204) ∧
  (∃ (code : Code) (i : StepIndex) (p : Sample), predictorSum (code[3]) p.toInt (dq code (stepAt i)) = 94203) ∧
  (∀ (code : Code) (i : StepIndex), -1 ≤ (i.val : Int) + indexAt code ∧ (i.val : Int) + indexAt code ≤ 96) ∧
  (∃ (code : Code) (i : StepIndex), (i.val : Int) + indexAt code = -1) ∧
  (∃ (code : Code) (i : StepIndex), (i.val : Int) + indexAt code = 96)

/-- When the predictor clamp acts (40_common_datapath.md R81, which the spec marks as derived), and that it can act
at any index because the difference is positive except for magnitude 0 at index 0. -/
def Obligations.PredictorClampActsExactlyOnOverflow : Prop :=
  (∀ (code : Code) (k : Codec), code[3] = false →
    ((k.recon code).ps.toInt ≠ k.ps.toInt + dq code (stepAt k.si) ↔ k.ps.toInt + dq code (stepAt k.si) > 32767)) ∧
  (∀ (code : Code) (k : Codec), code[3] = true →
    ((k.recon code).ps.toInt ≠ k.ps.toInt - dq code (stepAt k.si) ↔ k.ps.toInt - dq code (stepAt k.si) < -32768)) ∧
  (∀ (code : Code) (i : StepIndex), dq code (stepAt i) = 0 ↔ i = 0 ∧ code.toNat % 8 = 0)

/-- How the index moves (40_common_datapath.md R82, which the spec marks as derived): down by one, not below 0, for
a magnitude up to 3; up by 2, 4, 6, 8, not above 88, for 4 to 7; eleven codes of magnitude 7 lead from 0 to 88,
eighty-eight of magnitude at most 3 from 88 to 0. -/
def Obligations.IndexMovesWithTheMagnitude : Prop :=
  (∀ (c : Code) (k : Codec), c.toNat % 8 ≤ 3 → (k.recon c).si.val = k.si.val - 1) ∧
  (∀ (c : Code) (k : Codec), 4 ≤ c.toNat % 8 →
    (k.recon c).si.val = min 88 (k.si.val + 2 * (c.toNat % 8 - 3))) ∧
  (∀ (cs : List Code) (k : Codec), k.si = 0 → (∀ c ∈ cs, c.toNat % 8 = 7) →
    ∀ n : Nat, n ≤ 11 → cs.length = n → (Codec.reconAll cs k).si.val = 8 * n) ∧
  (∀ (cs : List Code) (k : Codec), k.si = 88 → (∀ c ∈ cs, c.toNat % 8 ≤ 3) →
    cs.length = 88 → (Codec.reconAll cs k).si = 0)

/-- The two codes of magnitude 0 leave the registers as they are exactly at index 0 (30_encoding.md R61, which the
spec marks as derived). -/
def Obligations.ZeroMagnitudeCodesRestOnlyAtIndexZero : Prop :=
  ∀ (i : Instr) (s : State), i = .p0 ∨ i = .n0 →
    ∃ t, exec i s = .next t ∧ (t.cur.regs = s.cur.regs ↔ s.cur.si = 0)

/-- PACK and FLUSH (42_encode.md R90): the first code is held and nothing goes out, the second completes the byte
`pend | (c << 4)`, a lone code is flushed with a zero high nibble, and an empty buffer flushes nothing. What `pend`
holds after `pend_valid` has been cleared is left open (10_state.md R14). -/
def Obligations.PackerPairsCodesLowNibbleFirst : Prop :=
  ∀ (k : Codec) (a b : Code), k.pendValid = false →
    k.pack a = { k with pend := a, pendValid := true } ∧
    (∃ (v : Byte) (held : Code),
      (k.pack a).pack b = { k with pend := held, pendValid := false, out := k.out ++ [.byte v] } ∧
      v.toNat = a.toNat ||| (b.toNat <<< 4)) ∧
    (∃ (v : Byte) (held : Code),
      (k.pack a).flush = { k with pend := held, pendValid := false, out := k.out ++ [.byte v] } ∧
      v.toNat = a.toNat) ∧
    k.flush = k

/-- UNPACK (43_decode.md R97): the low nibble first, then the high one; and, which the spec marks as derived, it is
the exact inverse of PACK on a full pair. -/
def Obligations.UnpackIsLowNibbleFirstAndUndoesPack : Prop :=
  (∀ b : Byte, (unpack b).map BitVec.toNat = [b.toNat &&& 0xF, (b.toNat >>> 4) &&& 0xF]) ∧
  (∀ c0 c1 : Code, unpack (packByte c1 c0) = [c0, c1]) ∧
  (∀ b : Byte, packByte (highNibble b) (lowNibble b) = b)

/-- Chunking, even (42_encode.md R95, first half, which the spec marks as derived): after an even number of samples
the next ENCODE goes on as if there had been one command. Whole states are compared, `pend` included (log entry 5). -/
def Obligations.EvenChunksEncodeLikeOneCommand : Prop :=
  ∀ (xs ys : List Sample) (s : State), xs.length % 2 = 0 →
    andThen (exec (.encode xs) s) (exec (.encode ys)) = exec (.encode (xs ++ ys)) s

/-- Chunking, odd (42_encode.md R95, second half, which the spec marks as derived): the registers and the codes are
those of the one command, but the first command ends with a byte whose high nibble is zero and the second command
starts a new byte. -/
def Obligations.OddChunksKeepCodesAndPadTheByte : Prop :=
  ∀ (xs ys : List Sample) (s : State), xs.length % 2 = 1 →
    ∃ (t u v : State) (first second : List Byte),
      exec (.encode xs) s = .next t ∧ exec (.encode ys) t = .next u ∧ exec (.encode (xs ++ ys)) s = .next v ∧
      u.cur.regs = v.cur.regs ∧
      codesOf (xs ++ ys) s.cur = codesOf xs s.cur ++ codesOf ys t.cur ∧
      t.cur.out = s.cur.out ++ first.map .byte ∧
      u.cur.out = s.cur.out ++ first.map .byte ++ second.map .byte ∧
      first.length = (xs.length + 1) / 2 ∧ second.length = (ys.length + 1) / 2 ∧
      (∃ b, first.getLast? = some b ∧ highNibble b = 0#4) ∧
      (∀ b, second.head? = some b → some (lowNibble b) = (codesOf ys t.cur).head?)

/-- Chunking of DECODE (43_decode.md R117, which the spec marks as derived): there is no parity condition. -/
def Obligations.DecodeChunksLikeOneCommand : Prop :=
  ∀ (xs ys : List Byte) (s : State),
    andThen (exec (.decode xs) s) (exec (.decode ys)) = exec (.decode (xs ++ ys)) s

/-- The encoder carries a decoder (42_encode.md R93, which the spec marks as derived): DEC_STEP of the codes of an
ENCODE, from the same registers, passes through the same registers after every sample and outputs the encoder's
predictors. -/
def Obligations.EncoderCarriesADecoder : Prop :=
  ∀ (xs : List Sample) (k l : Codec), k.regs = l.regs →
    (Codec.decSteps (codesOf xs k) l).out = l.out ++ (predictorsOf xs k).map .sample ∧
    (∀ n : Nat, (Codec.decSteps ((codesOf xs k).take n) l).regs = (Codec.encodeSamples (xs.take n) k).regs) ∧
    (∀ n : Nat, n < xs.length →
      (predictorsOf xs k)[n]? = some (Codec.encodeSamples (xs.take (n + 1)) k).ps)

/-- Round trip (43_decode.md R118, which the spec marks as derived). An ENCODE on one system and a DECODE of its
bytes on another that started in the same registers: for an even count the samples are the encoder's predictors and
the registers agree; for an odd count there is one more sample, the padding sample `clamp(p + (STEP[i] >> 3))`, and
the decoder is left in `(y[n], clamp(i - 1))`, which is the encoder's state only if `i = 0`. -/
def Obligations.RoundTripGivesTheEncodersPredictors : Prop :=
  ∀ (xs : List Sample) (s u : State), s.cur.regs = u.cur.regs →
    ∃ (bytes : List Byte) (t v : State),
      exec (.encode xs) s = .next t ∧ t.cur.out = s.cur.out ++ bytes.map .byte ∧
      exec (.decode bytes) u = .next v ∧
      (xs.length % 2 = 0 →
        v.cur.out = u.cur.out ++ (predictorsOf xs s.cur).map .sample ∧ v.cur.regs = t.cur.regs) ∧
      (xs.length % 2 = 1 → ∃ pad : Sample,
        v.cur.out = u.cur.out ++ (predictorsOf xs s.cur).map .sample ++ [.sample pad] ∧
        pad.toInt = max (-32768) (min 32767 (t.cur.ps.toInt + (stepAt t.cur.si >>> 3 : Nat))) ∧
        v.cur.ps = pad ∧ v.cur.si.val = t.cur.si.val - 1 ∧
        (v.cur.regs = t.cur.regs ↔ t.cur.si = 0)) ∧
      (predictorsOf xs s.cur).length = xs.length

/-- Determinism (42_encode.md R96): the items a command emits and the registers it leaves are a function of the
registers before and of its input, whatever the packer, the running command, the output so far and the other
instances are. -/
def Obligations.ResultsDependOnlyOnRegistersAndInput : Prop :=
  ∀ (i : Instr) (s u : State), s.cur.regs = u.cur.regs →
    ∃ (t v : State) (emitted : List Item), exec i s = .next t ∧ exec i u = .next v ∧
      t.cur.regs = v.cur.regs ∧ t.cur.out = s.cur.out ++ emitted ∧ v.cur.out = u.cur.out ++ emitted

/-- Totality (60_exceptions.md R119): every instruction answers a next state in every state; it leaves every other
instance, the caller's frames and turns, and the position of the running command as they were, and its output only
grows. -/
def Obligations.EveryInstructionCompletesAndLeavesTheRest : Prop :=
  ∀ (i : Instr) (s : State), ∃ t, exec i s = .next t ∧
    t.before = s.before ∧ t.after = s.after ∧ t.turns = s.turns ∧
    t.cur.job = s.cur.job ∧ t.cur.cmds = s.cur.cmds ∧ s.cur.out <+: t.cur.out

/-- Silence (70_reset_and_hazards.md R148; 95_test_vectors.md S3): from the fresh registers `n` zero samples give
`ceil(n / 2)` zero bytes, `m` zero bytes give `2m` zero samples, and the registers stay fresh. -/
def Obligations.SilenceFromFreshIsExactlySilence : Prop :=
  ∀ (s : State) (n : Nat), s.cur.ps = 0#16 → s.cur.si = 0 →
    (∃ t, exec (.encode (List.replicate n 0#16)) s = .next t ∧ t.cur.ps = 0#16 ∧ t.cur.si = 0 ∧
      t.cur.out = s.cur.out ++ List.replicate ((n + 1) / 2) (.byte 0#8)) ∧
    (∃ t, exec (.decode (List.replicate n 0#8)) s = .next t ∧ t.cur.ps = 0#16 ∧ t.cur.si = 0 ∧
      t.cur.out = s.cur.out ++ List.replicate (2 * n) (.sample 0#16))

/-- A state mismatch lasts (70_reset_and_hazards.md R144, which the spec marks as derived): one code applied to two
states keeps the difference of their indices as long as neither index is clamped. -/
def Obligations.IndexDifferenceSurvivesACode : Prop :=
  ∀ (c : Code) (k l : Codec),
    0 ≤ (k.si.val : Int) + indexAt c → (k.si.val : Int) + indexAt c ≤ 88 →
    0 ≤ (l.si.val : Int) + indexAt c → (l.si.val : Int) + indexAt c ≤ 88 →
    ((k.recon c).si.val : Int) - (l.recon c).si.val = (k.si.val : Int) - l.si.val

/-- The size of the quantization error of one step without overload and without the predictor clamp
(95_test_vectors.md V-ERR). -/
def Obligations.QuantizationErrorWithoutOverloadIsBounded : Prop :=
  ∀ (i : StepIndex) (a : Nat), a < 2 * stepAt i →
    ((a : Int) - dq (quant a 0 (stepAt i)) (stepAt i)).natAbs ≤ stepAt i / 8 + 2

/-- Decode and encode agree on every instruction with every operand (30_encoding.md R57, R58, R59). -/
def Obligations.DecodeOfEncodeIsTheInstruction : Prop :=
  ∀ i : Instr, decode (encode i) = .ok i

/-- The other direction: what decodes is the encoding of what it decodes to, so no bit of a frame or a code is
ignored (30_encoding.md R57 to R59). -/
def Obligations.EncodeOfDecodeIsTheEncoding : Prop :=
  ∀ (e : Encoded) (i : Instr), decode e = .ok i → encode i = e

/-- The decoder accepts exactly the well-formed frames. That an ill-formed frame has no meaning is the model's
choice (log entry 9). -/
def Obligations.DecoderAcceptsExactlyWellFormedFrames : Prop :=
  ∀ f : Frame, (∃ i, decodeFrame f = .ok i) ↔ f.wellFormed = true

/-- No illegal and no reserved encoding (30_encoding.md R60): every 4-bit pattern is a code and encodes back to
itself, every 2-bit `op` is a command, every 16-bit pattern is a sample for ENCODE and every 8-bit pattern a byte
for DECODE; and all of them execute. -/
def Obligations.NoPatternIsIllegal : Prop :=
  (∀ c : Code, ∃ i, decode (.code c) = .ok i ∧ encode i = .code c ∧ ∀ s : State, ∃ t, exec i s = .next t) ∧
  (∀ op : Op, ∃ i, decode (.command ⟨op, []⟩) = .ok i ∧ ∀ s : State, ∃ t, exec i s = .next t) ∧
  (∀ v : Sample, decode (.command ⟨0b10#2, [⟨.sample v, true⟩]⟩) = .ok (.encode [v]) ∧
    ∀ s : State, ∃ t, exec (.encode [v]) s = .next t) ∧
  (∀ b : Byte, decode (.command ⟨0b11#2, [⟨.byte b, true⟩]⟩) = .ok (.decode [b]) ∧
    ∀ s : State, ∃ t, exec (.decode [b]) s = .next t)

/-- Words written out from the tables of 30_encoding.md R57 to R59 decode to the instructions they stand for. -/
def Obligations.WordsOfTheTablesDecode : Prop :=
  decode (.code 0b0110#4) = .ok .p6 ∧ decode (.code 0b1101#4) = .ok .n5 ∧
  decode (.command ⟨0b01#2, []⟩) = .ok .reset ∧
  decode (.command ⟨0b10#2, [⟨.sample 0x000A#16, false⟩, ⟨.sample 0xFFF6#16, true⟩]⟩)
    = .ok (.encode [0x000A#16, 0xFFF6#16]) ∧
  decode (.command ⟨0b11#2, [⟨.byte 0xE6#8, false⟩, ⟨.byte 0x07#8, true⟩]⟩) = .ok (.decode [0xE6#8, 0x07#8])

/-- A step runs what it fetches. In a running DECODE it executes the selected nibble of the byte at the position and
moves the position on (10_state.md R17, 43_decode.md R115). Between commands it takes the caller's next frame: IDLE
and RESET are executed; ENCODE clears the packer and starts at sample 0; DECODE starts at the low nibble of byte 0;
with an empty operand the command is executed at once. That taking a command is a step of its own, and that a step
with no frame waiting is IDLE, are the model's choices (log entries 8, 21). -/
def Obligations.StepRunsTheDecodedInstruction : Prop :=
  ∀ s : State, s.turns = [] →
    (s.cur.job = .idle → s.cur.cmds = [] → step s = .next s) ∧
    (∀ (pos : Nat) (b : Byte) (more : List Byte), s.cur.job = .decoding pos (b :: more) .low →
      ∀ i, decode (.code (lowNibble b)) = .ok i → ∃ t, exec i s = .next t ∧
        step s = .next { t with cur := { t.cur with job := .decoding pos (b :: more) .high } }) ∧
    (∀ (pos : Nat) (b c : Byte) (more : List Byte), s.cur.job = .decoding pos (b :: c :: more) .high →
      ∀ i, decode (.code (highNibble b)) = .ok i → ∃ t, exec i s = .next t ∧
        step s = .next { t with cur := { t.cur with job := .decoding (pos + 1) (c :: more) .low } }) ∧
    (∀ (pos : Nat) (b : Byte), s.cur.job = .decoding pos [b] .high →
      ∀ i, decode (.code (highNibble b)) = .ok i → ∃ t, exec i s = .next t ∧
        step s = .next { t with cur := { t.cur with job := .idle } }) ∧
    (∀ (f : Frame) (fs : List Frame) (i : Instr), s.cur.job = .idle → s.cur.cmds = f :: fs →
      decode (.command f) = .ok i →
      (i.microSteps = 0 → step s = exec i { s with cur := { s.cur with cmds := fs } }) ∧
      (∀ (x : Sample) (rest : List Sample), i = .encode (x :: rest) →
        step s = .next { s with
          cur := { s.cur with cmds := fs, pendValid := false, job := .encoding 0 (x :: rest) } }) ∧
      (∀ (b : Byte) (rest : List Byte), i = .decode (b :: rest) →
        step s = .next { s with cur := { s.cur with cmds := fs, job := .decoding 0 (b :: rest) .low } }))

/-- One micro-step of a running ENCODE (42_encode.md R89, R91; 10_state.md R17): ENC_STEP and PACK of the sample at the
position; the position advances by one, or after the last sample the packer is flushed and the command ends. That FLUSH
and the end of the command belong to the micro-step of the last sample is the model's choice (log entry 8). -/
def Obligations.EncodeTakesOneSamplePerStep : Prop :=
  ∀ (s : State) (pos : Nat) (x : Sample), s.turns = [] →
    (∀ (y : Sample) (more : List Sample), s.cur.job = .encoding pos (x :: y :: more) →
      step s = .next { s with cur :=
        { ((s.cur.recon (quant x.toInt s.cur.ps.toInt (stepAt s.cur.si))).pack
            (quant x.toInt s.cur.ps.toInt (stepAt s.cur.si))) with job := .encoding (pos + 1) (y :: more) } }) ∧
    (s.cur.job = .encoding pos [x] →
      step s = .next { s with cur :=
        { ((s.cur.recon (quant x.toInt s.cur.ps.toInt (stepAt s.cur.si))).pack
            (quant x.toInt s.cur.ps.toInt (stepAt s.cur.si))).flush with job := .idle } })

/-- A command runs to completion (60_exceptions.md R134; 70_reset_and_hazards.md R151, R152): taking the command and
then its micro-steps, one per sample and two per byte, leave exactly the state the command's meaning gives, and the
instance is between commands again. Whole states are compared, `pend` included (log entry 5). That taking the command is
one more step is the model's choice (log entry 8). With turns listed, `EveryInstanceRunsAsIfAlone` carries this over. -/
def Obligations.MicroStepsOfACommandAreItsMeaning : Prop :=
  ∀ (s : State) (f : Frame) (fs : List Frame) (i : Instr),
    s.turns = [] → s.cur.job = .idle → s.cur.cmds = f :: fs → decode (.command f) = .ok i →
    runSteps (i.microSteps + 1) s = exec i { s with cur := { s.cur with cmds := fs } }

/-- One command at a time (20_memory.md R42): while a command runs, the caller's frames are left waiting. -/
def Obligations.NoCommandIsTakenWhileOneRuns : Prop :=
  ∀ s t : State, s.cur.job ≠ .idle → microStep s = .next t → t.cur.cmds = s.cur.cmds

/-- The registers are written by RESET and by RECON only (10_state.md R23): whatever a micro-step does, the register
pair afterwards is the old one, or `(0, 0)` after a RESET was taken, or RECON of some code while a command runs. -/
def Obligations.OnlyResetAndReconWriteTheRegisters : Prop :=
  ∀ s t : State, microStep s = .next t →
    t.cur.regs = s.cur.regs ∨
    (s.cur.job = .idle ∧ (∃ f fs, s.cur.cmds = f :: fs ∧ decode (.command f) = .ok .reset) ∧
      t.cur.regs = (0#16, 0)) ∨
    (s.cur.job ≠ .idle ∧ ∃ c : Code, t.cur.regs = (s.cur.recon c).regs)

/-- What keeps the state invariant (10_state.md R24, which the spec marks as derived from the two clamps): in a step
each instance's registers stay as they are, or become 0 because the instance whose turn it is takes a RESET, or become,
in the instance whose turn it is and while it runs a command, the exact new predictor clamped to [-32768, 32767] and the
exact new index clamped to [0, 88]. The predictor then moves by at most DQ at magnitude 7 (70_reset_and_hazards.md
R148). -/
def Obligations.RegistersStayInRange : Prop :=
  ∀ s t : State, step s = .next t → ∀ (j : Nat) (k l : Codec), s.all[j]? = some k → t.all[j]? = some l →
    l.regs = k.regs ∨
    (j = s.mover ∧ k.job = .idle ∧ (∃ f fs, k.cmds = f :: fs ∧ decode (.command f) = .ok .reset) ∧
      l.ps.toInt = 0 ∧ l.si.val = 0) ∨
    (j = s.mover ∧ k.job ≠ .idle ∧ ∃ code : Code,
      l.ps.toInt = max (-32768) (min 32767
        (if code[3] then k.ps.toInt - dq code (stepAt k.si) else k.ps.toInt + dq code (stepAt k.si))) ∧
      (l.si.val : Int) = max 0 (min 88 ((k.si.val : Int) + indexAt code)) ∧
      (l.ps.toInt - k.ps.toInt).natAbs ≤ dq 0b0111#4 (stepAt k.si))

/-- The packer invariant (10_state.md R14, R15) holds at reset, and so does the caller's side. -/
def Obligations.ResetStateIsGood : Prop :=
  State.reset.inv = true ∧ State.reset.callerInv = true

/-- Every step keeps the packer invariant (10_state.md R14, R15): in every instance the packer holds a code exactly
after an odd number of samples of a running ENCODE, it is empty between commands and during a DECODE, and a running
command has an item left. -/
def Obligations.EveryStepKeepsThePackerInvariant : Prop :=
  ∀ s t : State, s.inv = true → step s = .next t → t.inv = true

/-- Totality and closure (60_exceptions.md R120): as long as the caller's frames are well formed and its turns name
instances, a step has a next state, and so on for ever. -/
def Obligations.AServedSystemNeverStops : Prop :=
  ∀ s : State, s.callerInv = true → ∃ t, step s = .next t ∧ t.callerInv = true

/-- What can stop a step: never a fault, and a refusal only for a turn that names no instance or for a frame that
encodes no command; and each of these is refused when its turn has come. Both are the model's choice (log entries 7, 9).
-/
def Obligations.OnlyTheCallerCanStopAStep : Prop :=
  (∀ (s : State) (r : Fault), step s ≠ .fault r) ∧
  (∀ (s : State) (r : Refusal), step s = .refused r →
    (∃ n ns, s.turns = n :: ns ∧ s.all.length ≤ n ∧ r = .noSuchInstance n) ∨
    (∃ k ∈ s.all, ∃ f fs e, k.job = .idle ∧ k.cmds = f :: fs ∧ f.wellFormed = false ∧ r = .malformedFrame e)) ∧
  (∀ (s : State) (n : Nat) (ns : List Nat), s.turns = n :: ns → s.all.length ≤ n →
    step s = .refused (.noSuchInstance n)) ∧
  (∀ (s : State) (f : Frame) (fs : List Frame), s.turns = [] → s.cur.job = .idle → s.cur.cmds = f :: fs →
    f.wellFormed = false → ∃ e, step s = .refused (.malformedFrame e))

/-- The instances share nothing writable (20_memory.md R41, 70_reset_and_hazards.md R138): a step changes at most
the instance whose turn it is, and creates and removes none. -/
def Obligations.AStepLeavesEveryOtherInstanceAlone : Prop :=
  ∀ s t : State, step s = .next t →
    t.all.length = s.all.length ∧ ∀ j : Nat, j ≠ s.mover → t.all[j]? = s.all[j]?

/-- Micro-steps of different instances commute (20_memory.md R41, which the spec marks as derived): taken in either
order they leave every instance in the same state. -/
def Obligations.StepsOfDifferentInstancesCommute : Prop :=
  ∀ (s : State) (a b : Nat) (rest : List Nat), a ≠ b → ∀ t : State,
    runSteps 2 { s with turns := a :: b :: rest } = .next t →
    ∃ u : State, runSteps 2 { s with turns := b :: a :: rest } = .next u ∧
      u.all = t.all ∧ u.turns = t.turns

/-- What has been emitted is not changed later (20_memory.md R47): after a step every instance's output begins with
what it was before. -/
def Obligations.OutputsOnlyGrow : Prop :=
  ∀ (s t : State), step s = .next t → ∀ (j : Nat) (k : Codec), s.all[j]? = some k →
    ∃ l, t.all[j]? = some l ∧ k.out <+: l.out

/-- A listed turn moves the instance it names, and moves it as if it were alone (20_memory.md R41; 60_exceptions.md
R131): with `n` at the head of the turns, the step does to instance `n` what a step does to it when it is the selected
one and no turn is listed, and takes the turn off the list; where that step is refused, this one is, for the same
reason. That the order of work is such a list is the model's choice (log entry 7). -/
def Obligations.AListedTurnMovesTheInstanceItNames : Prop :=
  ∀ (s u : State) (n : Nat) (ns : List Nat), s.turns = n :: ns → s.all[n]? = some u.cur → u.turns = [] →
    (∀ v, step u = .next v →
      ∃ t, step s = .next t ∧ t.all = s.all.set n v.cur ∧ t.turns = ns ∧ t.before.length = n) ∧
    (∀ r, step u = .refused r → step s = .refused r)

/-- "any interleaving of their micro-steps gives each instance the same outputs and the same final state as running it
alone" (20_memory.md R41, which the spec marks as derived): after all listed turns have been taken, each instance is
what it becomes alone, by as many steps as the turns name it. That the interleaving is a list of turns is the model's
choice (log entry 7). -/
def Obligations.EveryInstanceRunsAsIfAlone : Prop :=
  ∀ s t : State, runSteps s.turns.length s = .next t →
    t.turns = [] ∧ t.all.length = s.all.length ∧
    ∀ (j : Nat) (u : State), s.all[j]? = some u.cur → u.turns = [] →
      ∃ v, runSteps (s.turns.count j) u = .next v ∧ t.all[j]? = some v.cur
end

