-- ==== Sys2Proof/Tests/Slice0.lean ====
section
/-! SUPPORT. The model's own tests. Expected values come from spec/: the examples of 43_decode.md R99 to R114, the
tables V1 to V9 of 95_test_vectors.md, and words written out from 30_encoding.md R57 to R59. The second half shows, for
every statement that has hypotheses, a concrete state and operands that meet all of them. -/

namespace Sys2Proof.Tests

open Sys2Proof.Machine

/-- An instance between commands with the register pair `(p, i)`. -/
def codec (p : Int) (i : StepIndex) : Codec := { Codec.fresh with ps := BitVec.ofInt 16 p, si := i }

/-- The reset state with the register pair `(p, i)` in the selected instance. -/
def state (p : Int) (i : StepIndex) : State := { State.reset with cur := codec p i }

/-- The selected instance running a job. -/
def running (p : Int) (i : StepIndex) (j : Job) : State := { State.reset with cur := { codec p i with job := j } }

/-- The selected instance with frames waiting. -/
def waiting (p : Int) (i : StepIndex) (fs : List Frame) : State :=
  { State.reset with cur := { codec p i with cmds := fs } }

/-- A next state with the registers `(p, i)` and the output `items`. -/
def gives (o : Host.Outcome State Fault Refusal) (p : Int) (i : StepIndex) (items : List Item) : Bool :=
  match o with
  | .next t => t.cur.ps.toInt == p && t.cur.si == i && t.cur.out == items
  | .fault _ => false
  | .refused _ => false

/-- A next state equal to `t`. -/
def isNext (o : Host.Outcome State Fault Refusal) (t : State) : Bool :=
  match o with
  | .next u => u == t
  | .fault _ => false
  | .refused _ => false

/-- A refusal, for the reason given. -/
def isRefused (o : Host.Outcome State Fault Refusal) (r : Refusal) : Bool :=
  match o with
  | .next _ => false
  | .fault _ => false
  | .refused q => q == r

/-- What a decoder answers. -/
def decodesTo (e : Encoded) (i : Instr) : Bool :=
  match decode e with
  | .ok j => i == j
  | .error _ => false

/-- Why a decoder refuses. -/
def refusedBy (f : Frame) (e : DecodeError) : Bool :=
  match decodeFrame f with
  | .ok _ => false
  | .error d => d == e

/-- An ENCODE whose frame lacks its `last` mark, waiting. -/
def malformed : State := waiting 0 0 [⟨0b10#2, [⟨.sample 5#16, false⟩]⟩]

/-- An instance as number 1 beside a selected instance 0 that executes a code, with three turns listed. -/
def beside (k : Codec) : State :=
  { before := [], cur := (running 0 0 (.decoding 0 [0xE6#8] .low)).cur, after := [k], turns := [1, 0, 1] }

/-- `ENCODE [10, -10, 300]` as a frame. -/
def encodeFrame : Frame :=
  ⟨0b10#2, [⟨.sample 0x000A#16, false⟩, ⟨.sample 0xFFF6#16, false⟩, ⟨.sample 0x012C#16, true⟩]⟩

/-- `ENCODE [10, -10]` from the fresh registers, after its first sample. -/
def midEncode : State :=
  { State.reset with
    cur := { codec 10 6 with pend := 0x6#4, pendValid := true, job := .encoding 1 [0xFFF6#16] } }

def samples (vs : List Int) : List Sample := vs.map (BitVec.ofInt 16)
def sampleItems (vs : List Int) : List Item := vs.map (fun v => .sample (BitVec.ofInt 16 v))
def byteItems (vs : List Byte) : List Item := vs.map .byte

/-! ## Well-formedness and decoding -/

/-- Each check of the framing refuses an ill-formed frame (30_encoding.md R58, R59). -/
theorem test_wf_idle_with_item :
    Frame.wellFormed ⟨0b00#2, [⟨.sample 5#16, true⟩]⟩ = false ∧
    refusedBy ⟨0b00#2, [⟨.sample 5#16, true⟩]⟩ .operandNotTaken = true := by decide
theorem test_wf_reset_with_item :
    Frame.wellFormed ⟨0b01#2, [⟨.byte 5#8, true⟩]⟩ = false ∧
    refusedBy ⟨0b01#2, [⟨.byte 5#8, true⟩]⟩ .operandNotTaken = true := by decide
theorem test_wf_byte_for_encode :
    Frame.wellFormed ⟨0b10#2, [⟨.byte 5#8, true⟩]⟩ = false ∧
    refusedBy ⟨0b10#2, [⟨.byte 5#8, true⟩]⟩ .wrongItemFormat = true := by decide
theorem test_wf_sample_for_decode :
    Frame.wellFormed ⟨0b11#2, [⟨.sample 5#16, true⟩]⟩ = false ∧
    refusedBy ⟨0b11#2, [⟨.sample 5#16, true⟩]⟩ .wrongItemFormat = true := by decide
theorem test_wf_last_mark_missing :
    Frame.wellFormed ⟨0b10#2, [⟨.sample 5#16, false⟩]⟩ = false ∧
    refusedBy ⟨0b10#2, [⟨.sample 5#16, false⟩]⟩ .misplacedLastMark = true := by decide
theorem test_wf_last_mark_too_early :
    Frame.wellFormed ⟨0b11#2, [⟨.byte 5#8, true⟩, ⟨.byte 6#8, true⟩]⟩ = false ∧
    refusedBy ⟨0b11#2, [⟨.byte 5#8, true⟩, ⟨.byte 6#8, true⟩]⟩ .misplacedLastMark = true := by decide

/-- The rows S M2 M1 M0 of 30_encoding.md R57. -/
theorem test_decode_codes_p :
    decodesTo (.code 0b0000#4) .p0 ∧ decodesTo (.code 0b0001#4) .p1 ∧
    decodesTo (.code 0b0010#4) .p2 ∧ decodesTo (.code 0b0011#4) .p3 ∧
    decodesTo (.code 0b0100#4) .p4 ∧ decodesTo (.code 0b0101#4) .p5 ∧
    decodesTo (.code 0b0110#4) .p6 ∧ decodesTo (.code 0b0111#4) .p7 := by decide
theorem test_decode_codes_n :
    decodesTo (.code 0b1000#4) .n0 ∧ decodesTo (.code 0b1001#4) .n1 ∧
    decodesTo (.code 0b1010#4) .n2 ∧ decodesTo (.code 0b1011#4) .n3 ∧
    decodesTo (.code 0b1100#4) .n4 ∧ decodesTo (.code 0b1101#4) .n5 ∧
    decodesTo (.code 0b1110#4) .n6 ∧ decodesTo (.code 0b1111#4) .n7 := by decide

/-- The rows of 30_encoding.md R58, with the operands of program P1 of 95_test_vectors.md. -/
theorem test_decode_commands :
    decodesTo (.command ⟨0b00#2, []⟩) .idle ∧ decodesTo (.command ⟨0b01#2, []⟩) .reset ∧
    decodesTo (.command ⟨0b10#2, [⟨.sample 0x0000#16, false⟩, ⟨.sample 0x0064#16, false⟩,
      ⟨.sample 0x005A#16, false⟩, ⟨.sample 0xFFCE#16, false⟩, ⟨.sample 0x0190#16, true⟩]⟩)
      (.encode (samples [0, 100, 90, -50, 400])) ∧
    decodesTo (.command ⟨0b11#2, [⟨.byte 0x70#8, false⟩, ⟨.byte 0xF7#8, false⟩, ⟨.byte 0x07#8, true⟩]⟩)
      (.decode [0x70#8, 0xF7#8, 0x07#8]) ∧
    decodesTo (.command ⟨0b10#2, []⟩) (.encode []) ∧ decodesTo (.command ⟨0b11#2, []⟩) (.decode []) := by decide

/-- The opcode table's rows as words (log entry 12). -/
theorem test_table_words :
    decodeTableWord 8 0x6 = some .p6 ∧ decodeTableWord 8 0xF = some .n7 ∧
    decodeTableWord 4 0x1 = some .p1 ∧ decodeTableWord 2 0x1 = some .reset ∧
    decodeTableWord 8 0x1 = some .reset ∧ decodeTableWord 8 0x2 = some (.encode []) ∧
    decodeTableWord 8 0x10 = none := by decide

/-- A table word placed by `withFetchWord` is run by the very next step: P6 from the fresh registers gives 10 and (10, 6)
(43_decode.md R105); RESET from (-1234, 57) gives (0, 0) (41_reset.md R85). -/
theorem test_fetch_word_code : gives (step (State.reset.withFetchWord 8 0x6)) 10 6 (sampleItems [10]) = true := by decide
theorem test_fetch_word_command : gives (step ((state (-1234) 57).withFetchWord 8 0x1)) 0 0 [] = true := by decide

/-! ## The sixteen codes: the examples of R99 to R114 -/

theorem test_p0_plain : gives (exec .p0 (state 1000 40)) 1042 39 (sampleItems [1042]) = true := by decide
theorem test_p0_clamped :
    gives (exec .p0 (state 0 0)) 0 0 (sampleItems [0]) = true ∧
    gives (exec .p0 (state 32000 88)) 32767 87 (sampleItems [32767]) = true := by decide
theorem test_p1_plain : gives (exec .p1 (state 1000 40)) 1126 39 (sampleItems [1126]) = true := by decide
theorem test_p1_clamped :
    gives (exec .p1 (state 0 0)) 1 0 (sampleItems [1]) = true ∧
    gives (exec .p1 (state 32000 88)) 32767 87 (sampleItems [32767]) = true := by decide
theorem test_p2_plain : gives (exec .p2 (state 1000 40)) 1210 39 (sampleItems [1210]) = true := by decide
theorem test_p2_clamped :
    gives (exec .p2 (state 0 0)) 3 0 (sampleItems [3]) = true ∧
    gives (exec .p2 (state 32000 88)) 32767 87 (sampleItems [32767]) = true := by decide
theorem test_p3_plain : gives (exec .p3 (state 1000 40)) 1294 39 (sampleItems [1294]) = true := by decide
theorem test_p3_clamped :
    gives (exec .p3 (state 0 0)) 4 0 (sampleItems [4]) = true ∧
    gives (exec .p3 (state 32000 88)) 32767 87 (sampleItems [32767]) = true := by decide
theorem test_p4_plain : gives (exec .p4 (state 1000 40)) 1379 42 (sampleItems [1379]) = true := by decide
theorem test_p4_clamped :
    gives (exec .p4 (state 0 0)) 7 2 (sampleItems [7]) = true ∧
    gives (exec .p4 (state 32000 88)) 32767 88 (sampleItems [32767]) = true := by decide
theorem test_p5_plain : gives (exec .p5 (state 1000 40)) 1463 44 (sampleItems [1463]) = true := by decide
theorem test_p5_clamped :
    gives (exec .p5 (state 0 0)) 8 4 (sampleItems [8]) = true ∧
    gives (exec .p5 (state 32000 88)) 32767 88 (sampleItems [32767]) = true := by decide
theorem test_p6_plain : gives (exec .p6 (state 1000 40)) 1547 46 (sampleItems [1547]) = true := by decide
theorem test_p6_clamped :
    gives (exec .p6 (state 0 0)) 10 6 (sampleItems [10]) = true ∧
    gives (exec .p6 (state 32000 88)) 32767 88 (sampleItems [32767]) = true := by decide
theorem test_p7_plain : gives (exec .p7 (state 1000 40)) 1631 48 (sampleItems [1631]) = true := by decide
theorem test_p7_clamped :
    gives (exec .p7 (state 0 0)) 11 8 (sampleItems [11]) = true ∧
    gives (exec .p7 (state 32000 88)) 32767 88 (sampleItems [32767]) = true := by decide
theorem test_n0_plain : gives (exec .n0 (state 1000 40)) 958 39 (sampleItems [958]) = true := by decide
theorem test_n0_clamped :
    gives (exec .n0 (state 0 0)) 0 0 (sampleItems [0]) = true ∧
    gives (exec .n0 (state (-32000) 88)) (-32768) 87 (sampleItems [-32768]) = true := by decide
theorem test_n1_plain : gives (exec .n1 (state 1000 40)) 874 39 (sampleItems [874]) = true := by decide
theorem test_n1_clamped :
    gives (exec .n1 (state 0 0)) (-1) 0 (sampleItems [-1]) = true ∧
    gives (exec .n1 (state (-32000) 88)) (-32768) 87 (sampleItems [-32768]) = true := by decide
theorem test_n2_plain : gives (exec .n2 (state 1000 40)) 790 39 (sampleItems [790]) = true := by decide
theorem test_n2_clamped :
    gives (exec .n2 (state 0 0)) (-3) 0 (sampleItems [-3]) = true ∧
    gives (exec .n2 (state (-32000) 88)) (-32768) 87 (sampleItems [-32768]) = true := by decide
theorem test_n3_plain : gives (exec .n3 (state 1000 40)) 706 39 (sampleItems [706]) = true := by decide
theorem test_n3_clamped :
    gives (exec .n3 (state 0 0)) (-4) 0 (sampleItems [-4]) = true ∧
    gives (exec .n3 (state (-32000) 88)) (-32768) 87 (sampleItems [-32768]) = true := by decide
theorem test_n4_plain : gives (exec .n4 (state 1000 40)) 621 42 (sampleItems [621]) = true := by decide
theorem test_n4_clamped :
    gives (exec .n4 (state 0 0)) (-7) 2 (sampleItems [-7]) = true ∧
    gives (exec .n4 (state (-32000) 88)) (-32768) 88 (sampleItems [-32768]) = true := by decide
theorem test_n5_plain : gives (exec .n5 (state 1000 40)) 537 44 (sampleItems [537]) = true := by decide
theorem test_n5_clamped :
    gives (exec .n5 (state 0 0)) (-8) 4 (sampleItems [-8]) = true ∧
    gives (exec .n5 (state (-32000) 88)) (-32768) 88 (sampleItems [-32768]) = true := by decide
theorem test_n6_plain : gives (exec .n6 (state 1000 40)) 453 46 (sampleItems [453]) = true := by decide
theorem test_n6_clamped :
    gives (exec .n6 (state 0 0)) (-10) 6 (sampleItems [-10]) = true ∧
    gives (exec .n6 (state (-32000) 88)) (-32768) 88 (sampleItems [-32768]) = true := by decide
theorem test_n7_plain : gives (exec .n7 (state 1000 40)) 369 48 (sampleItems [369]) = true := by decide
theorem test_n7_clamped :
    gives (exec .n7 (state 0 0)) (-11) 8 (sampleItems [-11]) = true ∧
    gives (exec .n7 (state (-32000) 88)) (-32768) 88 (sampleItems [-32768]) = true := by decide

/-! ## The commands: tables V7, V8 and V9 -/

theorem test_reset : gives (exec .reset (state (-1234) 57)) 0 0 [] = true := by decide
theorem test_idle : gives (exec .idle (state 77 3)) 77 3 [] = true := by decide
theorem test_encode_odd :
    gives (exec (.encode (samples [10, -10, 300])) (state 0 0)) 31 20 (byteItems [0xE6#8, 0x07#8]) = true := by
  decide +kernel
theorem test_encode_extremes :
    gives (exec (.encode (samples [32767, -32768])) (state 0 0)) (-19) 16 (byteItems [0xF7#8]) = true := by decide
theorem test_decode_pads :
    gives (exec (.decode [0xE6#8, 0x07#8]) (state 0 0)) 37 19 (sampleItems [10, -10, 31, 37]) = true := by decide
theorem test_decode_all_codes :
    gives (exec (.decode [0x10#8, 0x32#8, 0x54#8, 0x76#8, 0x98#8, 0xBA#8, 0xDC#8, 0xFE#8]) (state 0 30)) (-4465) 62
      (sampleItems [16, 59, 125, 209, 308, 454, 708, 1229, 1155, 951, 643, 251, -208, -886, -2062, -4465])
      = true := by decide +kernel

/-- The empty operands leave the registers (rows 2 of V7 and V8). -/
theorem test_empty_operands :
    gives (exec (.encode []) (state 123 45)) 123 45 [] = true ∧
    gives (exec (.decode []) (state 123 45)) 123 45 [] = true := by decide

/-! ## The micro-operations: tables V1 to V6, the transcription checks of R27 and R28 -/

theorem test_clamp :
    clamp 32768 (-32768) 32767 = 32767 ∧ clamp (-94204) (-32768) 32767 = -32768 ∧ clamp (-1) 0 88 = 0 ∧
    clamp 89 0 88 = 88 ∧ clamp 88 0 88 = 88 := by decide
theorem test_step_rom : stepTable.sum = 360393 ∧ stepTable.foldl Nat.xor 0 = 12987 := by decide
theorem test_index_rom : indexTable.sum = 32 ∧ indexAt 0x5#4 = 4 ∧ indexAt 0xD#4 = 4 ∧ indexAt 0x8#4 = -1 := by decide
theorem test_dq :
    (List.range 8).map (fun m => dq (BitVec.ofNat 4 m) 7) = [0, 1, 3, 4, 7, 8, 10, 11] ∧
    (List.range 8).map (fun m => dq (BitVec.ofNat 4 m) 32767)
      = [4095, 12286, 20478, 28669, 36862, 45053, 53245, 61436] := by decide

/-- Every boundary of the closed form of 42_encode.md R94 at step 337 (table V5). -/
theorem test_quant_boundaries :
    [0, 83, 84, 167, 168, 251, 252, 336].map (fun d => quant d 0 337)
      = [0x0#4, 0x0#4, 0x1#4, 0x1#4, 0x2#4, 0x2#4, 0x3#4, 0x3#4] ∧
    [337, 420, 421, 504, 505, 588, 589, 65535].map (fun d => quant d 0 337)
      = [0x4#4, 0x4#4, 0x5#4, 0x5#4, 0x6#4, 0x6#4, 0x7#4, 0x7#4] := by decide
theorem test_quant_signs :
    [-83, -84, -589].map (fun d => quant d 0 337) = [0x8#4, 0x9#4, 0xF#4] ∧
    [-1, -65535].map (fun d => quant d 0 7) = [0x9#4, 0xF#4] ∧ quant (-1) 0 8 = 0x8#4 ∧
    quant 500 1000 337 = 0xD#4 := by decide

/-- Rows 8, 10 and 16 of table V6. -/
theorem test_enc_step :
    ((codec (-32768) 88).codeFor (BitVec.ofInt 16 32767) = 0x7#4 ∧
      ((codec (-32768) 88).recon 0x7#4).regs = (BitVec.ofInt 16 28668, 88)) ∧
    ((codec 32767 88).codeFor (BitVec.ofInt 16 32767) = 0x0#4 ∧
      ((codec 32767 88).recon 0x0#4).regs = (BitVec.ofInt 16 32767, 87)) ∧
    ((codec (-1) 5).codeFor 0#16 = 0x0#4 ∧ ((codec (-1) 5).recon 0x0#4).regs = (0#16, 4)) := by decide

/-- Codes 0x6 then 0xE give 0xE6, a lone 0x7 gives 0x07 (42_encode.md R90), and back (43_decode.md R97). -/
theorem test_pack :
    (((codec 0 0).pack 0x6#4).pack 0xE#4).out = [.byte 0xE6#8] ∧ ((codec 0 0).pack 0x7#4).flush.out = [.byte 0x07#8] ∧
    unpack 0xE6#8 = [0x6#4, 0xE#4] ∧ unpack 0x07#8 = [0x7#4, 0x0#4] := by decide

/-! ## Turns -/

/-- The next turn selects its instance; the numbering is kept. -/
theorem test_turn_selects :
    isNext (step { State.reset with turns := [1] })
      { before := [Codec.fresh], cur := Codec.fresh, after := [], turns := [] } = true := by decide
theorem test_turn_of_no_instance :
    isRefused (step { State.reset with turns := [2] }) (.noSuchInstance 2) = true := by decide

/-! ## Witnesses: every statement's hypotheses are met -/

theorem test_witness_StepRunsTheDecodedInstruction_idle :
    (state 77 3).turns = [] ∧ (state 77 3).cur.job = .idle ∧ (state 77 3).cur.cmds = [] := by decide

/-- The hypotheses at both ends of the index, with the differences 65535 and 0; the intervals' boundaries are in
`test_quant_boundaries`. -/
theorem test_witness_QuantMagnitudeIsTheIntervalNumber :
    (stepAt 88 = 32767 ∧ 32767 / 4 = 8191 ∧ 32767 / 2 = 16383 ∧
      ((32767#16).toInt - (0x8000#16).toInt).natAbs = 65535 ∧
      quant (32767#16).toInt (0x8000#16).toInt 32767 = 0x7#4) ∧
    (stepAt 0 = 7 ∧ 7 / 4 = 1 ∧ 7 / 2 = 3 ∧ ((5#16).toInt - (5#16).toInt).natAbs = 0 ∧
      quant (5#16).toInt (5#16).toInt 7 = 0x0#4) := by decide

theorem test_witness_ClampSaturates :
    (0 : Int) ≤ 88 ∧ (-1 : Int) < 0 ∧ (89 : Int) > 88 ∧ (0 : Int) ≤ 88 ∧ (88 : Int) ≤ 88 := by decide

theorem test_witness_TableProperties :
    (87 : StepIndex) < 88 ∧ (0x3#4).toNat % 8 ≤ 3 ∧ 4 ≤ (0x4#4).toNat % 8 ∧ 4 ≤ (0xF#4).toNat % 8 := by decide

/-- Both signs, each at the last value that is not clamped and the first that is. -/
theorem test_witness_PredictorClampActsExactlyOnOverflow :
    ((0x7#4)[3] = false ∧ (codec 32756 0).ps.toInt + dq 0x7#4 (stepAt 0) = 32767 ∧
      (codec 32757 0).ps.toInt + dq 0x7#4 (stepAt 0) = 32768) ∧
    ((0xF#4)[3] = true ∧ (codec (-32757) 0).ps.toInt - dq 0xF#4 (stepAt 0) = -32768 ∧
      (codec (-32758) 0).ps.toInt - dq 0xF#4 (stepAt 0) = -32769) := by decide

theorem test_witness_IndexMovesWithTheMagnitude :
    ((0x3#4).toNat % 8 ≤ 3 ∧ (0xB#4).toNat % 8 ≤ 3) ∧ (4 ≤ (0x4#4).toNat % 8 ∧ 4 ≤ (0xF#4).toNat % 8) ∧
    ((codec 0 0).si = 0 ∧ (∀ c ∈ List.replicate 11 (0xF#4), c.toNat % 8 = 7) ∧
      (List.replicate 11 (0xF#4)).length = 11) ∧
    ((codec 0 88).si = 88 ∧ (∀ c ∈ List.replicate 88 (0xB#4), c.toNat % 8 ≤ 3) ∧
      (List.replicate 88 (0xB#4)).length = 88) := by
  refine ⟨by decide, by decide, by decide, by decide, fun c hc => ?_, by simp⟩
  rw [List.eq_of_mem_replicate hc]
  decide

theorem test_witness_ZeroMagnitudeCodesRestOnlyAtIndexZero :
    (Instr.p0 = .p0 ∨ Instr.p0 = .n0) ∧ (Instr.n0 = .p0 ∨ Instr.n0 = .n0) := by decide

theorem test_witness_PackerPairsCodesLowNibbleFirst : (codec 31 20).pendValid = false := by decide

theorem test_witness_EvenChunksEncodeLikeOneCommand :
    (samples []).length % 2 = 0 ∧ (samples [10, -10]).length % 2 = 0 := by decide

/-- The shortest odd first chunk, with a second chunk of one sample and with an empty one. -/
theorem test_witness_OddChunksKeepCodesAndPadTheByte :
    (samples [10]).length % 2 = 1 ∧
    gives (andThen (exec (.encode (samples [10, -10, 300])) (state 0 0)) (exec (.encode (samples [200])))) 124 28
      (byteItems [0xE6#8, 0x07#8, 0x07#8]) = true ∧
    gives (andThen (exec (.encode (samples [10])) (state 0 0)) (exec (.encode []))) 10 6 (byteItems [0x06#8])
      = true := by decide +kernel

theorem test_witness_EncoderCarriesADecoder :
    (codec 31 20).regs = ({ codec 31 20 with pendValid := true, out := [.byte 7#8] } : Codec).regs ∧
    2 < (samples [10, -10, 300]).length := by decide

/-- Two systems in the same registers that differ elsewhere; an even and an odd count; an odd count that ends at index
0 and one that does not. -/
theorem test_witness_RoundTripGivesTheEncodersPredictors :
    (state 0 0).cur.regs = (waiting 0 0 [⟨0b01#2, []⟩]).cur.regs ∧
    (samples [10, -10]).length % 2 = 0 ∧ (samples [10]).length % 2 = 1 ∧
    gives (exec (.encode (samples [1])) (state 0 0)) 1 0 (byteItems [0x01#8]) = true ∧
    gives (exec (.decode [0x01#8]) (state 0 0)) 1 0 (sampleItems [1, 1]) = true ∧
    gives (exec (.encode (samples [10, -10, 300])) (state 0 0)) 31 20 (byteItems [0xE6#8, 0x07#8]) = true ∧
    gives (exec (.decode [0xE6#8, 0x07#8]) (state 0 0)) 37 19 (sampleItems [10, -10, 31, 37]) = true := by
  decide +kernel

theorem test_witness_ResultsDependOnlyOnRegistersAndInput :
    (state 1000 40).cur.regs = (running 1000 40 (.decoding 3 [0x70#8] .high)).cur.regs ∧
    state 1000 40 ≠ running 1000 40 (.decoding 3 [0x70#8] .high) := by decide

theorem test_witness_SilenceFromFreshIsExactlySilence :
    State.reset.cur.ps = 0#16 ∧ State.reset.cur.si = 0 := by decide

/-- Indices that reach 0 and 88 exactly, without a clamp. -/
theorem test_witness_IndexDifferenceSurvivesACode :
    (0 ≤ ((codec 5 1).si.val : Int) + indexAt 0x0#4 ∧ ((codec 5 1).si.val : Int) + indexAt 0x0#4 ≤ 88 ∧
      0 ≤ ((codec 9 88).si.val : Int) + indexAt 0x0#4 ∧ ((codec 9 88).si.val : Int) + indexAt 0x0#4 ≤ 88) ∧
    (0 ≤ ((codec 5 0).si.val : Int) + indexAt 0x7#4 ∧ ((codec 5 0).si.val : Int) + indexAt 0x7#4 ≤ 88 ∧
      0 ≤ ((codec 9 80).si.val : Int) + indexAt 0x7#4 ∧ ((codec 9 80).si.val : Int) + indexAt 0x7#4 ≤ 88) := by decide

/-- The greatest difference, and the case in which the bound is met with equality (95_test_vectors.md V-ERR). -/
theorem test_witness_QuantizationErrorWithoutOverloadIsBounded :
    65533 < 2 * stepAt 88 ∧ 6 < 2 * stepAt 0 ∧ quant 6 0 7 = 0x3#4 ∧
    ((6 : Int) - dq 0x3#4 7).natAbs = 7 / 8 + 2 := by decide

theorem test_witness_EncodeOfDecodeIsTheEncoding :
    decode (.code 0xD#4) = .ok .n5 ∧
    decode (.command ⟨0b11#2, [⟨.byte 0xE6#8, false⟩, ⟨.byte 0x07#8, true⟩]⟩) = .ok (.decode [0xE6#8, 0x07#8]) :=
  ⟨rfl, rfl⟩

theorem test_witness_DecoderAcceptsExactlyWellFormedFrames :
    Frame.wellFormed ⟨0b11#2, [⟨.byte 5#8, true⟩]⟩ = true ∧ Frame.wellFormed ⟨0b11#2, [⟨.byte 5#8, false⟩]⟩ = false := by
  decide

/-- A DECODE before its low nibble, before a high nibble with and without a byte after it. -/
theorem test_witness_StepRunsTheDecodedInstruction_code :
    ((running 0 0 (.decoding 0 [0xE6#8] .low)).turns = [] ∧
      (running 0 0 (.decoding 0 [0xE6#8] .low)).cur.job = .decoding 0 [0xE6#8] .low) ∧
    decode (.code (lowNibble 0xE6#8)) = .ok .p6 ∧
    (running 0 0 (.decoding 0 [0xE6#8, 0x07#8] .high)).cur.job = .decoding 0 [0xE6#8, 0x07#8] .high ∧
    (running 0 0 (.decoding 1 [0xE6#8] .high)).cur.job = .decoding 1 [0xE6#8] .high ∧
    decode (.code (highNibble 0xE6#8)) = .ok .n6 :=
  ⟨⟨rfl, rfl⟩, rfl, rfl, rfl, rfl⟩

/-- A RESET, an ENCODE of nothing, an ENCODE of one sample and a DECODE of one byte waiting between commands. -/
theorem test_witness_StepRunsTheDecodedInstruction_command :
    ((waiting 5 9 [⟨0b01#2, []⟩]).turns = [] ∧ (waiting 5 9 [⟨0b01#2, []⟩]).cur.job = .idle ∧
      (waiting 5 9 [⟨0b01#2, []⟩]).cur.cmds = [⟨0b01#2, []⟩]) ∧
    (decode (.command ⟨0b01#2, []⟩) = .ok .reset ∧ Instr.reset.microSteps = 0) ∧
    (decode (.command ⟨0b10#2, []⟩) = .ok (.encode []) ∧ (Instr.encode []).microSteps = 0) ∧
    decode (.command ⟨0b10#2, [⟨.sample 7#16, true⟩]⟩) = .ok (.encode [7#16]) ∧
    decode (.command ⟨0b11#2, [⟨.byte 7#8, true⟩]⟩) = .ok (.decode [7#8]) :=
  ⟨⟨rfl, rfl, rfl⟩, ⟨rfl, rfl⟩, ⟨rfl, rfl⟩, rfl, rfl⟩

theorem test_witness_EncodeTakesOneSamplePerStep :
    ((running 0 0 (.encoding 0 [10#16, 5#16])).turns = [] ∧
      (running 0 0 (.encoding 0 [10#16, 5#16])).cur.job = .encoding 0 [10#16, 5#16]) ∧
    ((running 0 0 (.encoding 2 [10#16])).turns = [] ∧
      (running 0 0 (.encoding 2 [10#16])).cur.job = .encoding 2 [10#16]) := by decide

/-- The odd chunk of 42_encode.md R91 as a waiting command; its four steps give the example's result. -/
theorem test_witness_MicroStepsOfACommandAreItsMeaning :
    ((waiting 0 0 [encodeFrame]).turns = [] ∧ (waiting 0 0 [encodeFrame]).cur.job = .idle ∧
      (waiting 0 0 [encodeFrame]).cur.cmds = [encodeFrame]) ∧
    decode (.command encodeFrame) = .ok (.encode (samples [10, -10, 300])) ∧
    gives (runSteps 4 (waiting 0 0 [encodeFrame])) 31 20 (byteItems [0xE6#8, 0x07#8]) = true :=
  ⟨⟨rfl, rfl, rfl⟩, rfl, by decide +kernel⟩

theorem test_witness_NoCommandIsTakenWhileOneRuns :
    (running 0 0 (.encoding 0 [10#16])).cur.job ≠ .idle ∧
    ∃ t, microStep (running 0 0 (.encoding 0 [10#16])) = .next t := ⟨by decide, _, rfl⟩

/-- A RESET being taken, and a code being executed. -/
theorem test_witness_OnlyResetAndReconWriteTheRegisters :
    (∃ t, microStep (waiting 5 9 [⟨0b01#2, []⟩]) = .next t) ∧
    (∃ t, microStep (running 0 0 (.decoding 0 [0xE6#8] .low)) = .next t) := ⟨⟨_, rfl⟩, _, rfl⟩

/-- A code that clamps both registers, a RESET, and the instance whose turn it is not. -/
theorem test_witness_RegistersStayInRange :
    ((∃ t, step (running 32760 88 (.decoding 0 [0x77#8] .low)) = .next t) ∧
      gives (step (running 32760 88 (.decoding 0 [0x77#8] .low))) 32767 88 (sampleItems [32767]) = true) ∧
    ((∃ t, step (waiting 5 9 [⟨0b01#2, []⟩]) = .next t) ∧ gives (step (waiting 5 9 [⟨0b01#2, []⟩])) 0 0 [] = true) ∧
    (waiting 5 9 [⟨0b01#2, []⟩]).all[1]? = some Codec.fresh := by
  refine ⟨⟨⟨_, rfl⟩, by decide⟩, ⟨⟨_, rfl⟩, by decide⟩, rfl⟩

/-- In the middle of an ENCODE, after an odd number of samples, with a code in the packer. -/
theorem test_witness_EveryStepKeepsThePackerInvariant :
    midEncode.inv = true ∧ ∃ t, step midEncode = .next t := ⟨by decide, _, rfl⟩

theorem test_witness_AServedSystemNeverStops :
    State.callerInv { waiting 0 0 [encodeFrame] with turns := [1, 0] } = true := by decide

/-- A turn that names no instance; a frame without its last mark. -/
theorem test_witness_OnlyTheCallerCanStopAStep :
    (({ state 0 0 with turns := [2] } : State).turns = [2] ∧ (state 0 0).all.length ≤ 2 ∧
      isRefused (step { state 0 0 with turns := [2] }) (.noSuchInstance 2) = true) ∧
    malformed.turns = [] ∧ malformed.cur.job = .idle ∧
    malformed.cur.cmds = [⟨0b10#2, [⟨.sample 5#16, false⟩]⟩] ∧
    Frame.wellFormed ⟨0b10#2, [⟨.sample 5#16, false⟩]⟩ = false ∧
    isRefused (step malformed) (.malformedFrame .misplacedLastMark) = true := by
  decide

/-- A step of instance 1 beside instance 0. -/
theorem test_witness_AStepLeavesEveryOtherInstanceAlone :
    (∃ t, step { state 5 9 with turns := [1] } = .next t) ∧ 0 ≠ State.mover { state 5 9 with turns := [1] } :=
  ⟨⟨_, rfl⟩, by decide⟩

theorem test_witness_StepsOfDifferentInstancesCommute :
    (0 : Nat) ≠ 1 ∧ ∃ t, runSteps 2 { midEncode with turns := [0, 1] } = .next t := ⟨by decide, _, rfl⟩

theorem test_witness_OutputsOnlyGrow :
    (∃ t, step midEncode = .next t) ∧ midEncode.all[0]? = some midEncode.cur := ⟨⟨_, rfl⟩, rfl⟩

/-- Instance 1 named by the turn while instance 0 is selected; alone it moves, and with a malformed frame it is
refused. -/
theorem test_witness_AListedTurnMovesTheInstanceItNames :
    (beside midEncode.cur).turns = [1, 0, 1] ∧ (beside midEncode.cur).all[1]? = some midEncode.cur ∧
    midEncode.turns = [] ∧ (∃ v, step midEncode = .next v) ∧
    (beside malformed.cur).all[1]? = some malformed.cur ∧ malformed.turns = [] ∧
    isRefused (step malformed) (.malformedFrame .misplacedLastMark) = true := by
  refine ⟨rfl, rfl, rfl, ⟨_, rfl⟩, rfl, rfl, by decide⟩

/-- Two instances interleaved: 1, 0, 1; alone, instance 1 takes two of the steps. -/
theorem test_witness_EveryInstanceRunsAsIfAlone :
    (∃ t, runSteps 3 (beside midEncode.cur) = .next t) ∧ (beside midEncode.cur).turns.length = 3 ∧
    (beside midEncode.cur).all[1]? = some midEncode.cur ∧ midEncode.turns = [] := ⟨⟨_, rfl⟩, rfl, rfl, rfl⟩

end Sys2Proof.Tests
end

section
/-! The state family (10_state.md): what one micro-step can make of a codec, said once as a relation between the codec
before and after; then the statements about the packer and the registers, each by the cases of that relation. -/

namespace Sys2Proof.Machine

/-! ## Codes -/

theorem exists_codeOfBits : ∀ c : Code, ∃ s m2 m1 m0, c = codeOfBits s m2 m1 m0 := by decide

/-- The meaning of each code, written from its own rule, is DEC_STEP of its four bits: in each of the sixteen cases
the rule's difference and adjustment are those `dq` and `indexAt` compute (43_decode.md R98). -/
theorem exec_decodeCode (c : Code) (s : State) :
    exec (decodeCode c) s = .next (s.updCur (Codec.decStep c)) := by
  obtain ⟨sign, m2, m1, m0, rfl⟩ := exists_codeOfBits c
  cases sign <;> cases m2 <;> cases m1 <;> cases m0 <;> rfl

/-- The difference is greatest at magnitude 7. -/
theorem dq_le_dq_seven (c : Code) (step : Nat) : dq c step ≤ dq 0b0111#4 step := by
  have hmax : dq 0b0111#4 step = eighth step + step + half step + quarter step := rfl
  rw [hmax, dq]
  gcongr <;> split <;> simp

/-- RECON moves the predictor by at most the difference: the clamp does not lead away from a value in range. -/
theorem Codec.recon_ps_dist_le (c : Code) (k : Codec) :
    ((k.recon c).ps.toInt - k.ps.toInt).natAbs ≤ dq c (stepAt k.si) := by
  have hp := sample_toInt_bounds k.ps
  rw [Codec.recon_ps_toInt, predictorSum]
  split <;> omega

/-! ## What a micro-step makes of a codec -/

/-- Between commands, with a frame of the command `i` at the head of the caller's frames and `fs` behind it. -/
def Codec.Takes (k : Codec) (i : Instr) (fs : List Frame) : Prop :=
  k.job = .idle ∧ ∃ f, k.cmds = f :: fs ∧ decodeFrame f = .ok i

/-- One micro-step of a codec, one constructor per thing the sequencer does (10_state.md R17). -/
inductive Codec.Move : Codec → Codec → Prop where
  | wait {k : Codec} (hidle : k.job = .idle) (hcmds : k.cmds = []) : Move k k
  | takeIdle {k : Codec} {fs : List Frame} (ht : k.Takes .idle fs) : Move k (k.setCmds fs)
  | takeReset {k : Codec} {fs : List Frame} (ht : k.Takes .reset fs) : Move k ((k.setCmds fs).setRegs 0#16 0)
  | encodeNothing {k : Codec} {fs : List Frame} (ht : k.Takes (.encode []) fs) :
      Move k (k.setCmds fs).clearPend.flush
  | startEncode {k : Codec} {fs : List Frame} {x : Sample} {rest : List Sample}
      (ht : k.Takes (.encode (x :: rest)) fs) :
      Move k ((k.setCmds fs).clearPend.setJob (.encoding 0 (x :: rest)))
  | decodeNothing {k : Codec} {fs : List Frame} (ht : k.Takes (.decode []) fs) : Move k (k.setCmds fs)
  | startDecode {k : Codec} {fs : List Frame} {b : Byte} {rest : List Byte}
      (ht : k.Takes (.decode (b :: rest)) fs) : Move k ((k.setCmds fs).setJob (.decoding 0 (b :: rest) .low))
  | encode {k : Codec} {pos : Nat} {rest : List Sample} (hjob : k.job = .encoding pos rest) :
      Move k (k.encodeNext pos rest)
  | endDecode {k : Codec} {pos : Nat} {nibble : Nibble} (hjob : k.job = .decoding pos [] nibble) :
      Move k (k.setJob .idle)
  | decode {k : Codec} {pos : Nat} {b : Byte} {more : List Byte} {nibble : Nibble}
      (hjob : k.job = .decoding pos (b :: more) nibble) :
      Move k ((k.decStep (fetchNibble b nibble)).setJob (decodeAdvance pos b more nibble))

/-- Accepting the command of the frame at the head is a move. -/
theorem accept_move {s t : State} {i : Instr} {fs : List Frame} (ht : s.cur.Takes i fs)
    (h : accept i (s.updCur (Codec.setCmds fs)) = .next t) : s.cur.Move t.cur := by
  obtain ⟨f, -, hf⟩ := ht.2
  obtain ⟨rfl, rfl⟩ | ⟨rfl, rfl⟩ | ⟨rfl, rfl⟩ | ⟨x, rest, rfl, rfl⟩ | ⟨rfl, rfl⟩ | ⟨b, rest, rfl, rfl⟩ :=
    accept_command_cases h (decodeFrame_command hf)
  · exact .takeIdle ht
  · exact .takeReset ht
  · exact .encodeNothing ht
  · exact .startEncode ht
  · exact .decodeNothing ht
  · exact .startDecode ht

/-- A micro-step of the system is a move of the selected codec. -/
theorem microStep_move {s t : State} (h : microStep s = .next t) : s.cur.Move t.cur := by
  obtain ⟨hidle, hissue⟩ | ⟨pos, rest, hjob, rfl⟩ | ⟨pos, nibble, hjob, rfl⟩ |
    ⟨pos, b, more, nibble, u, hjob, hexec, rfl⟩ := microStep_cases h
  · obtain ⟨hcmds, hexec⟩ | ⟨f, fs, i, hcmds, hf, haccept⟩ := issue_cases hissue
    · cases hexec
      exact .wait hidle hcmds
    · exact accept_move ⟨hidle, f, hcmds, hf⟩ haccept
  · exact .encode hjob
  · exact .endDecode hjob
  · rw [exec_decodeCode] at hexec
    cases hexec
    exact .decode hjob

/-! ## What a step makes of the codecs -/

/-- Replacing the selected codec replaces the entry of its number. -/
theorem State.all_with_cur (s : State) (k : Codec) :
    ({ s with cur := k } : State).all = s.all.set s.before.length k := by
  simp [State.all]

/-- The selected codec is the entry of its number. -/
theorem State.all_getElem?_selected (s : State) : s.all[s.before.length]? = some s.cur := by
  simp [State.all]

/-- Taking the turn selects the mover and changes no codec. -/
theorem State.takeTurn_selects_mover {s u : State} (h : s.takeTurn = .next u) :
    u.all = s.all ∧ u.before.length = s.mover := by
  obtain ⟨hturns, rfl⟩ | ⟨n, ns, v, hturns, hfocus, rfl⟩ := State.takeTurn_cases h
  · simp [State.mover, hturns]
  · obtain ⟨hall, hlen, -, -⟩ := State.focus_spec hfocus
    exact ⟨hall, by simp [State.mover, hturns, hlen]⟩

/-- A step moves the codec whose turn it is, and puts it back in its place. -/
theorem step_moves_mover {s t : State} (h : step s = .next t) :
    ∃ k l, s.all[s.mover]? = some k ∧ k.Move l ∧ t.all = s.all.set s.mover l := by
  obtain ⟨u, hturn, hmicro⟩ := step_cases h
  obtain ⟨hall, hmover⟩ := State.takeTurn_selects_mover hturn
  have ht : t = { u with cur := t.cur } := by
    simpa only [hmicro, Host.Outcome.next.injEq] using microStep_local hmicro rfl
  refine ⟨u.cur, t.cur, ?_, microStep_move hmicro, ?_⟩
  · rw [← hall, ← hmover, State.all_getElem?_selected]
  · rw [ht, State.all_with_cur, hall, hmover]

/-! ## The packer (10_state.md R14, R15) -/

theorem Codec.inv_of_idle {k : Codec} (h : k.job = .idle) : k.inv = !k.pendValid := by
  simp [Codec.inv, h]

theorem Codec.inv_of_encoding {k : Codec} {pos : Nat} {rest : List Sample} (h : k.job = .encoding pos rest) :
    k.inv = (!rest.isEmpty && (k.pendValid == (pos % 2 == 1))) := by
  simp [Codec.inv, h]

theorem Codec.inv_of_decoding {k : Codec} {pos : Nat} {rest : List Byte} {nibble : Nibble}
    (h : k.job = .decoding pos rest nibble) : k.inv = (!rest.isEmpty && !k.pendValid) := by
  simp [Codec.inv, h]

@[simp] theorem Codec.inv_setJob_idle (k : Codec) : (k.setJob .idle).inv = !k.pendValid := rfl
@[simp] theorem Codec.inv_setJob_encoding (pos : Nat) (rest : List Sample) (k : Codec) :
    (k.setJob (.encoding pos rest)).inv = (!rest.isEmpty && (k.pendValid == (pos % 2 == 1))) := rfl
@[simp] theorem Codec.inv_setJob_decoding (pos : Nat) (rest : List Byte) (nibble : Nibble) (k : Codec) :
    (k.setJob (.decoding pos rest nibble)).inv = (!rest.isEmpty && !k.pendValid) := rfl

/-- Wherever a DECODE goes next, an empty packer is what the invariant asks. -/
theorem Codec.inv_setJob_decodeAdvance {k : Codec} (h : k.pendValid = false) (pos : Nat) (b : Byte)
    (more : List Byte) (nibble : Nibble) : (k.setJob (decodeAdvance pos b more nibble)).inv = true := by
  cases nibble with
  | low => simp [decodeAdvance, h]
  | high =>
    cases more with
    | nil => simp [decodeAdvance, h]
    | cons c rest => simp [decodeAdvance, h]

/-- A sample of an ENCODE fills or empties the packer and moves to a position of the other parity; after the last
sample FLUSH empties it. -/
theorem Codec.inv_encodeNext {k : Codec} {pos : Nat} {rest : List Sample} (hjob : k.job = .encoding pos rest)
    (h : k.inv = true) : (k.encodeNext pos rest).inv = true := by
  rw [Codec.inv_of_encoding hjob] at h
  match rest with
  | [] => simp at h
  | [x] => simp [Codec.encodeNext]
  | x :: y :: more =>
    have hvalid : k.pendValid = (pos % 2 == 1) := by simpa using h
    have hparity : (!(pos % 2 == 1)) = ((pos + 1) % 2 == 1) := by
      rcases Nat.mod_two_eq_zero_or_one pos with hp | hp <;> simp [Nat.add_mod, hp]
    simp [Codec.encodeNext, hvalid, hparity]

/-- Every move keeps the packer invariant of the codec. -/
theorem Codec.Move.inv {k l : Codec} (hm : k.Move l) (h : k.inv = true) : l.inv = true := by
  cases hm with
  | wait => exact h
  | takeIdle ht | takeReset ht | decodeNothing ht =>
    rw [Codec.inv_of_idle ht.1] at h
    simpa [Codec.inv_of_idle, ht.1] using h
  | encodeNothing ht => simp [Codec.inv_of_idle, ht.1]
  | startEncode => simp
  | startDecode ht =>
    rw [Codec.inv_of_idle ht.1] at h
    simpa using h
  | encode hjob => exact Codec.inv_encodeNext hjob h
  | endDecode hjob => simp [Codec.inv_of_decoding hjob] at h
  | decode hjob =>
    have hempty : k.pendValid = false := by simpa [Codec.inv_of_decoding hjob] using h
    exact Codec.inv_setJob_decodeAdvance (by simpa using hempty) _ _ _ _

theorem State.inv_iff (s : State) : s.inv = true ↔ ∀ k ∈ s.all, k.inv = true := List.all_eq_true

/-- Settles O41: the step moves one codec, every move keeps the invariant, and no other codec changes. -/
theorem everyStepKeepsThePackerInvariant : Obligations.EveryStepKeepsThePackerInvariant := by
  intro s t hs hstep
  rw [State.inv_iff] at hs ⊢
  obtain ⟨k, l, hk, hmove, hall⟩ := step_moves_mover hstep
  have hl : l.inv = true := hmove.inv (hs k (List.mem_of_getElem? hk))
  intro m hm
  rw [hall] at hm
  obtain hm | rfl := List.mem_or_eq_of_mem_set hm
  · exact hs m hm
  · exact hl

/-- Settles O40: every codec of the reset state is fresh, and the caller has listed nothing. -/
theorem resetStateIsGood : Obligations.ResetStateIsGood := by
  unfold Obligations.ResetStateIsGood
  decide

/-! ## The registers (10_state.md R23, R24) -/

/-- The registers after one sample of an ENCODE are those of RECON of some code; with no sample left they stay. -/
theorem Codec.encodeNext_regs (pos : Nat) (rest : List Sample) (k : Codec) :
    (k.encodeNext pos rest).regs = k.regs ∨ ∃ c, (k.encodeNext pos rest).regs = (k.recon c).regs :=
  match rest with
  | [] => .inl (by simp [Codec.encodeNext])
  | [x] => .inr ⟨k.codeFor x, by simp [Codec.encodeNext]⟩
  | x :: _ :: _ => .inr ⟨k.codeFor x, by simp [Codec.encodeNext]⟩

/-- What a move can make of the register pair. -/
theorem Codec.Move.regs {k l : Codec} (hm : k.Move l) :
    l.regs = k.regs ∨
    (k.job = .idle ∧ (∃ f fs, k.cmds = f :: fs ∧ Sys2Proof.decode (.command f) = .ok .reset) ∧
      l.regs = (0#16, 0)) ∨
    (k.job ≠ .idle ∧ ∃ c : Code, l.regs = (k.recon c).regs) := by
  cases hm with
  | wait => exact .inl rfl
  | takeIdle | encodeNothing | startEncode | decodeNothing | startDecode | endDecode => exact .inl (by simp)
  | takeReset ht =>
    obtain ⟨hidle, f, hcmds, hf⟩ := ht
    exact .inr (.inl ⟨hidle, ⟨f, _, hcmds, hf⟩, rfl⟩)
  | encode hjob =>
    obtain hsame | hrecon := Codec.encodeNext_regs _ _ k
    · exact .inl hsame
    · exact .inr (.inr ⟨by simp [hjob], hrecon⟩)
  | decode hjob => exact .inr (.inr ⟨by simp [hjob], _, rfl⟩)

/-- Settles O38: a micro-step is a move of the selected codec. -/
theorem onlyResetAndReconWriteTheRegisters : Obligations.OnlyResetAndReconWriteTheRegisters :=
  fun _ _ h => (microStep_move h).regs

/-- Settles O39: only the codec whose turn it is moves, and RECON clamps the exact sums. -/
theorem registersStayInRange : Obligations.RegistersStayInRange := by
  intro s t hstep j k l hk hl
  obtain ⟨k', l', hk', hmove, hall⟩ := step_moves_mover hstep
  rw [hall] at hl
  by_cases hj : s.mover = j
  · subst hj
    obtain rfl : k' = k := by simpa [hk] using hk'.symm
    obtain rfl : l' = l := by
      rw [List.getElem?_set_self (List.getElem?_eq_some_iff.mp hk).1] at hl
      simpa using hl
    obtain hsame | ⟨hidle, hreset, hregs⟩ | ⟨hbusy, c, hregs⟩ := hmove.regs
    · exact .inl hsame
    · obtain ⟨hps, hsi⟩ := Prod.mk.inj hregs
      exact .inr (.inl ⟨rfl, hidle, hreset, by simp [hps], by simp [hsi]⟩)
    · obtain ⟨hps, hsi⟩ := (Codec.regs_eq_iff _ _).mp hregs
      refine .inr (.inr ⟨rfl, hbusy, c, ?_, ?_, ?_⟩)
      · rw [hps, Codec.recon_ps_toInt, predictorSum]
      · rw [hsi, Codec.recon_si_val]
      · rw [hps]
        exact (Codec.recon_ps_dist_le c _).trans (dq_le_dq_seven c _)
  · rw [List.getElem?_set_ne hj, hk] at hl
    cases hl
    exact .inl rfl

/-! ## What a micro-step runs (10_state.md R17) -/

/-- Between commands with no frame waiting, nothing happens. -/
theorem microStep_of_no_frame {s : State} (hidle : s.cur.job = .idle) (hcmds : s.cur.cmds = []) :
    microStep s = .next s := by
  simp [microStep, hidle, issue, hcmds, exec, execIdle]

/-- Between commands, the frame at the head is decoded and accepted. -/
theorem microStep_of_frame {s : State} {f : Frame} {fs : List Frame} {i : Instr} (hidle : s.cur.job = .idle)
    (hcmds : s.cur.cmds = f :: fs) (hf : decodeFrame f = .ok i) :
    microStep s = accept i (s.updCur (Codec.setCmds fs)) := by
  simp [microStep, hidle, issue, hcmds, hf]

/-- An instruction without micro-steps is executed when it is accepted. -/
theorem accept_of_no_microSteps {i : Instr} (h : i.microSteps = 0) (s : State) : accept i s = exec i s := by
  cases i with
  | encode xs =>
    obtain rfl : xs = [] := List.eq_nil_of_length_eq_zero h
    rfl
  | decode bs =>
    obtain rfl : bs = [] := by simpa [Instr.microSteps] using h
    rfl
  | _ => rfl

/-- In a running DECODE, the instruction of the selected nibble is executed and the position moves on. -/
theorem microStep_of_byte {s : State} {pos : Nat} {b : Byte} {more : List Byte} {nibble : Nibble} {i : Instr}
    (hjob : s.cur.job = .decoding pos (b :: more) nibble)
    (hi : decode (.code (fetchNibble b nibble)) = .ok i) :
    ∃ t, exec i s = .next t ∧
      microStep s = .next (t.updCur (Codec.setJob (decodeAdvance pos b more nibble))) := by
  obtain rfl : decodeCode (fetchNibble b nibble) = i := by simpa [decode] using hi
  refine ⟨_, exec_decodeCode _ s, ?_⟩
  simp [microStep, hjob, decodeNext, exec_decodeCode]

/-- Settles O34: with no turn listed a step is a micro-step of the selected codec. -/
theorem stepRunsTheDecodedInstruction : Obligations.StepRunsTheDecodedInstruction := by
  intro s hturns
  rw [step_of_no_turns hturns]
  refine ⟨microStep_of_no_frame, ?_, ?_, ?_, ?_⟩
  · intro pos b more hjob i hi
    exact microStep_of_byte hjob hi
  · intro pos b c more hjob i hi
    exact microStep_of_byte hjob hi
  · intro pos b hjob i hi
    exact microStep_of_byte hjob hi
  · intro f fs i hidle hcmds hf
    rw [microStep_of_frame hidle hcmds hf]
    refine ⟨fun hzero => accept_of_no_microSteps hzero _, ?_, ?_⟩
    · rintro x rest rfl
      rfl
    · rintro b rest rfl
      rfl

end Sys2Proof.Machine
end

section
/-! The memory family (20_memory.md): the two tables, and the instances that share nothing writable. A micro-step is
exactly a move of the selected codec (`microStep_of_move` is the converse of `microStep_move`), so a step is exactly a
move of the mover's entry in the list of instances; the statements about several instances are then facts about
`List.set`. -/

namespace Sys2Proof.Machine

/-! ## The tables (20_memory.md R29) -/

/-- The step sizes strictly increase (R29 item 2): each is smaller than its successor. -/
theorem stepAt_strictMono : StrictMono stepAt := Fin.strictMono_iff_lt_succ.mpr (by decide)

/-- A quarter of a step size is at least 1 (R29 item 1): the step size is at least 7. -/
theorem one_le_stepAt_shiftRight_two (a : StepIndex) : 1 ≤ stepAt a >>> 2 := by
  have hlow := (stepAt_bounds a).1
  rw [Nat.shiftRight_eq_div_pow]
  omega

/-- Only the first step size, 7, is smaller than 8 (R29 item 3). -/
theorem stepAt_shiftRight_three_eq_zero : ∀ a : StepIndex, stepAt a >>> 3 = 0 ↔ a = 0 := by decide

/-- The adjustments by magnitude, both signs (R29 item 5). -/
theorem indexAt_of_magnitude : ∀ c : Code, (indexAt c = -1 ↔ c.toNat % 8 ≤ 3) ∧
    (4 ≤ c.toNat % 8 → indexAt c = 2 * ((c.toNat % 8 : Int) - 3)) := by decide

/-- Settles O11: the five items of R29, over the whole of both tables. -/
theorem tableProperties : Obligations.TableProperties := by
  refine ⟨fun a => ?_, fun a b hab => stepAt_strictMono hab, ⟨rfl, stepAt_shiftRight_three_eq_zero⟩, rfl,
    fun c => ?_⟩
  · obtain ⟨hlow, hhigh⟩ := stepAt_bounds a
    exact ⟨hlow, hhigh, one_le_stepAt_shiftRight_two a⟩
  · obtain ⟨hlow, hhigh⟩ := indexAt_bounds c
    exact ⟨hlow, hhigh, indexAt_of_magnitude c⟩

/-! ## What a move leaves of the caller's side (20_memory.md R42, R47) -/

@[simp] theorem Codec.encodeNext_cmds (pos : Nat) (rest : List Sample) (k : Codec) :
    (k.encodeNext pos rest).cmds = k.cmds :=
  match rest with
  | [] => by simp [Codec.encodeNext]
  | [x] => by simp [Codec.encodeNext]
  | x :: y :: more => by simp [Codec.encodeNext]

/-- A codec that runs a command leaves the frames waiting. -/
theorem Codec.Move.cmds_of_busy {k l : Codec} (hm : k.Move l) (hbusy : k.job ≠ .idle) : l.cmds = k.cmds := by
  cases hm with
  | wait => rfl
  | takeIdle ht | takeReset ht | encodeNothing ht | startEncode ht | decodeNothing ht | startDecode ht =>
    exact absurd ht.1 hbusy
  | encode | endDecode | decode => simp

/-- Settles O37: a micro-step is a move of the selected codec, and only an idle codec takes a frame. -/
theorem noCommandIsTakenWhileOneRuns : Obligations.NoCommandIsTakenWhileOneRuns :=
  fun _ _ hbusy h => (microStep_move h).cmds_of_busy hbusy

theorem Codec.out_prefix_pack (c : Code) (k : Codec) : k.out <+: (k.pack c).out := by
  cases h : k.pendValid with
  | false => simp [Codec.pack_of_not_valid h]
  | true => simp [Codec.pack_of_valid h]

theorem Codec.out_prefix_flush (k : Codec) : k.out <+: k.flush.out := by
  cases h : k.pendValid with
  | false => simp [Codec.flush_of_not_valid h]
  | true => simp [Codec.flush_of_valid h]

theorem Codec.out_prefix_decStep (c : Code) (k : Codec) : k.out <+: (k.decStep c).out := by
  simp [Codec.decStep_eq]

theorem Codec.out_prefix_encodeSample (x : Sample) (k : Codec) : k.out <+: (k.encodeSample x).out :=
  Codec.out_prefix_pack (k.codeFor x) (k.recon (k.codeFor x))

theorem Codec.out_prefix_encodeNext (pos : Nat) (rest : List Sample) (k : Codec) :
    k.out <+: (k.encodeNext pos rest).out :=
  match rest with
  | [] => k.out_prefix_flush
  | [x] => (k.out_prefix_encodeSample x).trans (k.encodeSample x).out_prefix_flush
  | x :: _ :: _ => k.out_prefix_encodeSample x

/-- A move only appends to what the codec has delivered. -/
theorem Codec.Move.out_prefix {k l : Codec} (hm : k.Move l) : k.out <+: l.out := by
  cases hm with
  | wait | takeIdle | takeReset | startEncode | decodeNothing | startDecode | endDecode => simp
  | encodeNothing => exact Codec.out_prefix_flush (k.setCmds _).clearPend
  | encode => exact k.out_prefix_encodeNext _ _
  | decode => exact k.out_prefix_decStep _

/-! ## A step is a move of one entry (20_memory.md R41) -/

/-- Settles O44: a step replaces the mover's entry, and `List.set` keeps the length and every other entry. -/
theorem aStepLeavesEveryOtherInstanceAlone : Obligations.AStepLeavesEveryOtherInstanceAlone := by
  intro s t hstep
  obtain ⟨k, l, -, -, hall⟩ := step_moves_mover hstep
  rw [hall]
  exact ⟨List.length_set, fun j hj => List.getElem?_set_ne hj.symm⟩

/-- Settles O46: the mover's output grows by its move, and every other codec is what it was. -/
theorem outputsOnlyGrow : Obligations.OutputsOnlyGrow := by
  intro s t hstep j k hk
  obtain ⟨k', l, hk', hmove, hall⟩ := step_moves_mover hstep
  rw [hall]
  by_cases hj : s.mover = j
  · subst hj
    obtain rfl : k' = k := by simpa [hk] using hk'.symm
    exact ⟨l, List.getElem?_set_self (List.getElem?_eq_some_iff.mp hk).1, hmove.out_prefix⟩
  · exact ⟨k, by rw [List.getElem?_set_ne hj, hk], List.prefix_rfl⟩

/-- Every move is what a micro-step does, in any system that has the codec selected. -/
theorem microStep_of_move {s : State} {l : Codec} (hm : s.cur.Move l) : microStep s = .next { s with cur := l } := by
  generalize hk : s.cur = k at hm
  cases hm with
  | wait hidle hcmds =>
    subst hk
    exact microStep_of_no_frame hidle hcmds
  | takeIdle ht | takeReset ht | encodeNothing ht | startEncode ht | decodeNothing ht | startDecode ht =>
    subst hk
    obtain ⟨hidle, f, hcmds, hf⟩ := ht
    rw [microStep_of_frame hidle hcmds hf]
    rfl
  | encode hjob | endDecode hjob => simp [microStep, decodeNext, State.updCur, hk, hjob]
  | decode hjob => simp [microStep, decodeNext, exec_decodeCode, State.updCur, hk, hjob]

/-- The entry that moves next can be selected: the turn answers a next state and is taken off the list. -/
theorem State.takeTurn_of_getElem? {s : State} {k : Codec} (hk : s.all[s.mover]? = some k) :
    ∃ u, s.takeTurn = .next u ∧ u.cur = k ∧ u.turns = s.turns.tail := by
  cases hturns : s.turns with
  | nil =>
    have hcur : s.cur = k := by simpa [State.mover, hturns, State.all_getElem?_selected] using hk
    exact ⟨s, by simp [State.takeTurn, hturns], hcur, hturns⟩
  | cons n ns =>
    rw [State.mover, hturns] at hk
    obtain ⟨u, hfocus, hcur⟩ := State.focus_of_getElem? hk
    exact ⟨{ u with turns := ns }, by simp [State.takeTurn, hturns, hfocus], hcur, rfl⟩

/-- If the entry of the mover can move, the step is that move (the converse of `step_moves_mover`). -/
theorem step_of_move {s : State} {k l : Codec} (hk : s.all[s.mover]? = some k) (hm : k.Move l) :
    ∃ t, step s = .next t ∧ t.all = s.all.set s.mover l ∧ t.turns = s.turns.tail ∧ t.before.length = s.mover := by
  obtain ⟨u, hturn, rfl, hturns⟩ := State.takeTurn_of_getElem? hk
  obtain ⟨hall, hmover⟩ := State.takeTurn_selects_mover hturn
  refine ⟨{ u with cur := l }, ?_, ?_, hturns, hmover⟩
  · rw [step, hturn, andThen_next, microStep_of_move hm]
  · rw [State.all_with_cur, hall, hmover]

/-- A step is a move of the mover's entry, and takes the turn off the list. -/
theorem step_moves_mover_and_takes_turn {s t : State} (h : step s = .next t) :
    ∃ k l, s.all[s.mover]? = some k ∧ k.Move l ∧ t.all = s.all.set s.mover l ∧ t.turns = s.turns.tail := by
  obtain ⟨k, l, hk, hm, hall⟩ := step_moves_mover h
  obtain ⟨t', hstep, -, hturns, -⟩ := step_of_move hk hm
  obtain rfl : t' = t := by simpa [h] using hstep.symm
  exact ⟨k, l, hk, hm, hall, hturns⟩

/-- Settles O47: what the codec does alone is a move, or a refusal for what the codec alone shows. -/
theorem aListedTurnMovesTheInstanceItNames : Obligations.AListedTurnMovesTheInstanceItNames := by
  intro s u n ns hturns hn hu
  obtain rfl : s.mover = n := by simp [State.mover, hturns]
  rw [step_of_no_turns hu]
  refine ⟨fun v hv => ?_, fun r hr => ?_⟩
  · obtain ⟨t, hstep, hall, ht, hlen⟩ := step_of_move hn (microStep_move hv)
    exact ⟨t, hstep, hall, by rw [ht, hturns, List.tail_cons], hlen⟩
  · obtain ⟨w, hturn, hcur, -⟩ := State.takeTurn_of_getElem? hn
    rw [step, hturn, andThen_next, microStep_refused_local hr hcur]

/-! ## Runs over listed turns -/

@[simp] theorem State.all_with_turns (s : State) (ns : List Nat) : ({ s with turns := ns } : State).all = s.all := rfl

/-- Two steps over the turns `a`, `b` of different instances: each moves the entry it names from what it was. -/
theorem runSteps_two_next {s t : State} {a b : Nat} {rest : List Nat} (hab : a ≠ b) (hturns : s.turns = a :: b :: rest)
    (h : runSteps 2 s = .next t) :
    ∃ k l k' l', s.all[a]? = some k ∧ k.Move l ∧ s.all[b]? = some k' ∧ k'.Move l' ∧
      t.all = (s.all.set a l).set b l' ∧ t.turns = rest := by
  rw [runSteps_succ, andThen_eq_next] at h
  obtain ⟨s₁, hstep, h⟩ := h
  rw [runSteps_succ, andThen_eq_next] at h
  obtain ⟨s₂, hstep₁, h⟩ := h
  cases h
  obtain ⟨k, l, hk, hm, hall, ht⟩ := step_moves_mover_and_takes_turn hstep
  obtain ⟨k', l', hk', hm', hall', ht'⟩ := step_moves_mover_and_takes_turn hstep₁
  simp only [State.mover, hturns, List.tail_cons] at hk hall ht
  simp only [State.mover, ht, hall, List.tail_cons, List.getElem?_set_ne hab] at hk' hall' ht'
  exact ⟨k, l, k', l', hk, hm, hk', hm', hall', ht'⟩

/-- The converse: if both entries can move, so can the system, over both turns. -/
theorem runSteps_two_of_moves {s : State} {a b : Nat} {rest : List Nat} {k l k' l' : Codec} (hab : a ≠ b)
    (hturns : s.turns = a :: b :: rest) (hk : s.all[a]? = some k) (hm : k.Move l) (hk' : s.all[b]? = some k')
    (hm' : k'.Move l') :
    ∃ t, runSteps 2 s = .next t ∧ t.all = (s.all.set a l).set b l' ∧ t.turns = rest := by
  obtain rfl : s.mover = a := by simp [State.mover, hturns]
  obtain ⟨s₁, hstep, hall, ht, -⟩ := step_of_move hk hm
  rw [hturns, List.tail_cons] at ht
  have hmover₁ : s₁.mover = b := by simp [State.mover, ht]
  have hb : s₁.all[s₁.mover]? = some k' := by rw [hmover₁, hall, List.getElem?_set_ne hab, hk']
  obtain ⟨s₂, hstep₁, hall', ht', -⟩ := step_of_move hb hm'
  refine ⟨s₂, ?_, ?_, ?_⟩
  · rw [runSteps_succ_of_next hstep, runSteps_succ_of_next hstep₁, runSteps_zero]
  · rw [hall', hall, hmover₁]
  · rw [ht', ht, List.tail_cons]

/-- Settles O45: each of the two moves is possible from the start, and replacements of two different entries
commute. -/
theorem stepsOfDifferentInstancesCommute : Obligations.StepsOfDifferentInstancesCommute := by
  intro s a b rest hab t h
  obtain ⟨k, l, k', l', hk, hm, hk', hm', hall, hturns⟩ := runSteps_two_next hab rfl h
  obtain ⟨u, hrun, hallu, hturnsu⟩ :=
    runSteps_two_of_moves (s := { s with turns := b :: a :: rest }) hab.symm rfl hk' hm' hk hm
  refine ⟨u, hrun, ?_, hturnsu.trans hturns.symm⟩
  rw [hallu, hall]
  exact List.set_comm l' l hab.symm

/-- Settles O48, by induction on the turns: the first turn moves the codec it names as a step alone would, and
leaves what every other codec starts from. -/
theorem everyInstanceRunsAsIfAlone : Obligations.EveryInstanceRunsAsIfAlone := by
  intro s t hrun
  generalize hts : s.turns = ts at hrun
  induction ts generalizing s with
  | nil =>
    cases hrun
    exact ⟨hts, rfl, fun j u hj _ => ⟨u, rfl, hj⟩⟩
  | cons n ns ih =>
    rw [List.length_cons, runSteps_succ, andThen_eq_next] at hrun
    obtain ⟨s₁, hstep, hrest⟩ := hrun
    obtain ⟨k, l, hk, hm, hall, hturns⟩ := step_moves_mover_and_takes_turn hstep
    simp only [State.mover, hts, List.tail_cons] at hk hall hturns
    obtain ⟨hdone, hlen, halone⟩ := ih s₁ hturns hrest
    refine ⟨hdone, by rw [hlen, hall, List.length_set], fun j u hj hu => ?_⟩
    by_cases hnj : n = j
    · subst hnj
      obtain rfl : k = u.cur := by simpa [hk] using hj
      have hstepu : step u = .next { u with cur := l } := by rw [step_of_no_turns hu, microStep_of_move hm]
      rw [List.count_cons_self, runSteps_succ_of_next hstepu]
      refine halone n { u with cur := l } ?_ hu
      rw [hall, List.getElem?_set_self (List.getElem?_eq_some_iff.mp hk).1]
    · rw [List.count_cons_of_ne hnj]
      refine halone j u ?_ hu
      rw [hall, List.getElem?_set_ne hnj, hj]

end Sys2Proof.Machine
end

section
/-! The encoding family (30_encoding.md). A frame decodes exactly when it is well formed (`exists_unframe_eq_ok_iff`),
and then to the one operand that is framed so (`unframe_eq_ok_iff`); the equations of `decodeFrame` and
`Frame.wellFormed`, one per operation select, carry both facts to the decoder. -/

namespace Sys2Proof

/-! ## Framing an operand (30_encoding.md R59) -/

@[simp] theorem isEmpty_framed {α : Type} (put : α → Item) (vs : List α) :
    (framed put vs).isEmpty = vs.isEmpty := by
  cases vs <;> rfl

theorem marksWellFormed_cons (b : Beat) (rest : List Beat) :
    marksWellFormed (b :: rest) = (b.last == rest.isEmpty && marksWellFormed rest) := by
  cases rest <;> simp [marksWellFormed]

/-- What taking an operand out of a frame asks of the first item, and what it answers. -/
theorem unframe_cons_eq_ok_iff {α : Type} {take : Item → Option α} {b : Beat} {rest : List Beat} {ws : List α} :
    unframe take (b :: rest) = .ok ws ↔
      ∃ v vs, take b.item = some v ∧ b.last = rest.isEmpty ∧ unframe take rest = .ok vs ∧ ws = v :: vs := by
  rw [unframe]
  cases take b.item with
  | none => simp
  | some v =>
    by_cases hlast : b.last = rest.isEmpty
    · cases unframe take rest <;> simp [hlast, eq_comm]
    · simp [hlast]

/-- A frame holds an operand exactly when it is that operand framed, where `put` and `take` undo each other. -/
theorem unframe_eq_ok_iff {α : Type} {take : Item → Option α} {put : α → Item}
    (hput : ∀ x v, take x = some v ↔ put v = x) (bs : List Beat) (vs : List α) :
    unframe take bs = .ok vs ↔ framed put vs = bs := by
  induction bs generalizing vs with
  | nil => cases vs <;> simp [unframe, framed]
  | cons b rest ih =>
    rw [unframe_cons_eq_ok_iff]
    constructor
    · rintro ⟨v, vs, hv, hlast, hrest, rfl⟩
      obtain rfl := (ih vs).mp hrest
      rw [framed, (hput b.item v).mp hv, ← isEmpty_framed put, ← hlast]
    · intro h
      cases vs with
      | nil => cases h
      | cons v vs =>
        obtain ⟨rfl, rfl⟩ := List.cons.inj h
        exact ⟨v, vs, (hput _ v).mpr rfl, (isEmpty_framed put vs).symm, (ih vs).mpr rfl, rfl⟩

/-- A frame holds an operand exactly when its marks are right and every item is of the format asked for. -/
theorem exists_unframe_eq_ok_iff {α : Type} (take : Item → Option α) (bs : List Beat) :
    (∃ vs, unframe take bs = .ok vs) ↔
      (marksWellFormed bs && bs.all fun b => (take b.item).isSome) = true := by
  induction bs with
  | nil => simp [unframe, marksWellFormed]
  | cons b rest ih =>
    simp only [Bool.and_eq_true, marksWellFormed_cons, List.all_cons, beq_iff_eq] at ih ⊢
    constructor
    · rintro ⟨ws, h⟩
      obtain ⟨v, vs, hv, hlast, hrest, -⟩ := unframe_cons_eq_ok_iff.mp h
      obtain ⟨hmarks, hall⟩ := ih.mp ⟨vs, hrest⟩
      exact ⟨⟨hlast, hmarks⟩, Option.isSome_of_eq_some hv, hall⟩
    · rintro ⟨⟨hlast, hmarks⟩, hsome, hall⟩
      obtain ⟨v, hv⟩ := Option.isSome_iff_exists.mp hsome
      obtain ⟨vs, hrest⟩ := ih.mpr ⟨hmarks, hall⟩
      exact ⟨v :: vs, unframe_cons_eq_ok_iff.mpr ⟨v, vs, hv, hlast, hrest, rfl⟩⟩

theorem sample?_eq_some_iff (x : Item) (v : Sample) : x.sample? = some v ↔ Item.sample v = x := by
  cases x <;> simp [Item.sample?, eq_comm]

theorem byte?_eq_some_iff (x : Item) (v : Byte) : x.byte? = some v ↔ Item.byte v = x := by
  cases x <;> simp [Item.byte?, eq_comm]

@[simp] theorem isSome_sample? (x : Item) : x.sample?.isSome = x.isSample := by cases x <;> rfl
@[simp] theorem isSome_byte? (x : Item) : x.byte?.isSome = x.isByte := by cases x <;> rfl

/-! ## The decoder, one equation per operation select (30_encoding.md R58) -/

theorem op_cases : ∀ op : Op, op = 0b00#2 ∨ op = 0b01#2 ∨ op = 0b10#2 ∨ op = 0b11#2 := by decide

theorem decodeFrame_idle (bs : List Beat) :
    decodeFrame ⟨0b00#2, bs⟩ = if bs.isEmpty then .ok .idle else .error .operandNotTaken := rfl

theorem decodeFrame_reset (bs : List Beat) :
    decodeFrame ⟨0b01#2, bs⟩ = if bs.isEmpty then .ok .reset else .error .operandNotTaken := rfl

theorem decodeFrame_encode (bs : List Beat) :
    decodeFrame ⟨0b10#2, bs⟩ = (unframe Item.sample? bs).map .encode := rfl

theorem decodeFrame_decode (bs : List Beat) :
    decodeFrame ⟨0b11#2, bs⟩ = (unframe Item.byte? bs).map .decode := rfl

theorem Frame.wellFormed_idle (bs : List Beat) : Frame.wellFormed ⟨0b00#2, bs⟩ = bs.isEmpty := by
  cases bs with
  | nil => rfl
  | cons b rest => simp [Frame.wellFormed, Frame.operandWellFormed]

theorem Frame.wellFormed_reset (bs : List Beat) : Frame.wellFormed ⟨0b01#2, bs⟩ = bs.isEmpty := by
  cases bs with
  | nil => rfl
  | cons b rest => simp [Frame.wellFormed, Frame.operandWellFormed]

theorem Frame.wellFormed_encode (bs : List Beat) :
    Frame.wellFormed ⟨0b10#2, bs⟩ = (marksWellFormed bs && bs.all fun b => b.item.isSample) := rfl

theorem Frame.wellFormed_decode (bs : List Beat) :
    Frame.wellFormed ⟨0b11#2, bs⟩ = (marksWellFormed bs && bs.all fun b => b.item.isByte) := rfl

theorem except_map_eq_ok_iff {ε α β : Type} {g : α → β} {o : Except ε α} {y : β} :
    o.map g = .ok y ↔ ∃ x, o = .ok x ∧ g x = y := by
  cases o <;> simp [Except.map]

/-! ## Decode and encode (30_encoding.md R57 to R59) -/

/-- The sixteen rows of the code map, read in both directions (R57). -/
theorem encode_decodeCode : ∀ c : Code, encode (decodeCode c) = .code c := by decide

/-- Settles O29: the codes row by row; for the two commands with an operand, the frame holds what was framed. -/
theorem decodeOfEncodeIsTheInstruction : Obligations.DecodeOfEncodeIsTheInstruction := by
  intro i
  cases i with
  | encode xs =>
    have hxs : unframe Item.sample? (framed Item.sample xs) = .ok xs :=
      (unframe_eq_ok_iff sample?_eq_some_iff _ _).mpr rfl
    rw [encode, decode, decodeFrame_encode, hxs, Except.map]
  | decode bs =>
    have hbs : unframe Item.byte? (framed Item.byte bs) = .ok bs :=
      (unframe_eq_ok_iff byte?_eq_some_iff _ _).mpr rfl
    rw [encode, decode, decodeFrame_decode, hbs, Except.map]
  | _ => rfl

/-- A frame that decodes is the encoding of its command, by the operation select. -/
theorem encode_of_decodeFrame {f : Frame} {i : Instr} (h : decodeFrame f = .ok i) : encode i = .command f := by
  obtain ⟨op, bs⟩ := f
  obtain rfl | rfl | rfl | rfl := op_cases op
  · rw [decodeFrame_idle] at h
    cases bs <;> cases h
    rfl
  · rw [decodeFrame_reset] at h
    cases bs <;> cases h
    rfl
  · rw [decodeFrame_encode, except_map_eq_ok_iff] at h
    obtain ⟨xs, hxs, rfl⟩ := h
    rw [encode, (unframe_eq_ok_iff sample?_eq_some_iff _ _).mp hxs]
  · rw [decodeFrame_decode, except_map_eq_ok_iff] at h
    obtain ⟨vs, hvs, rfl⟩ := h
    rw [encode, (unframe_eq_ok_iff byte?_eq_some_iff _ _).mp hvs]

/-- Settles O30: a code by the code map, a frame by its operation select. -/
theorem encodeOfDecodeIsTheEncoding : Obligations.EncodeOfDecodeIsTheEncoding := by
  intro e i h
  cases e with
  | command f => exact encode_of_decodeFrame h
  | code c =>
    cases h
    exact encode_decodeCode c

/-- Settles O31, by the operation select: IDLE and RESET take no item, and the operand of ENCODE or DECODE can be taken
out of its frame exactly when the frame is well formed. -/
theorem decoderAcceptsExactlyWellFormedFrames : Obligations.DecoderAcceptsExactlyWellFormedFrames := by
  rintro ⟨op, bs⟩
  obtain rfl | rfl | rfl | rfl := op_cases op
  · rw [decodeFrame_idle, Frame.wellFormed_idle]
    cases bs <;> simp
  · rw [decodeFrame_reset, Frame.wellFormed_reset]
    cases bs <;> simp
  · have hunframe := exists_unframe_eq_ok_iff Item.sample? bs
    simpa [decodeFrame_encode, except_map_eq_ok_iff, Frame.wellFormed_encode] using hunframe
  · have hunframe := exists_unframe_eq_ok_iff Item.byte? bs
    simpa [decodeFrame_decode, except_map_eq_ok_iff, Frame.wellFormed_decode] using hunframe

/-- Settles O33: the words are those `encode` gives, so each part is a case of O29. -/
theorem wordsOfTheTablesDecode : Obligations.WordsOfTheTablesDecode :=
  ⟨decodeOfEncodeIsTheInstruction .p6, decodeOfEncodeIsTheInstruction .n5, decodeOfEncodeIsTheInstruction .reset,
    decodeOfEncodeIsTheInstruction (.encode [0x000A#16, 0xFFF6#16]),
    decodeOfEncodeIsTheInstruction (.decode [0xE6#8, 0x07#8])⟩

end Sys2Proof

namespace Sys2Proof.Machine

/-! ## Every pattern executes (30_encoding.md R60, R61) -/

theorem exec_completes (i : Instr) (s : State) : ∃ t, exec i s = .next t := by
  obtain ⟨f, hf⟩ := exec_local i
  exact ⟨s.updCur f, hf s⟩

/-- Settles O32: every pattern decodes by the tables, and every instruction completes. -/
theorem noPatternIsIllegal : Obligations.NoPatternIsIllegal := by
  refine ⟨fun c => ⟨decodeCode c, rfl, encode_decodeCode c, exec_completes _⟩, fun op => ?_,
    fun v => ⟨decodeOfEncodeIsTheInstruction (.encode [v]), exec_completes _⟩,
    fun b => ⟨decodeOfEncodeIsTheInstruction (.decode [b]), exec_completes _⟩⟩
  obtain rfl | rfl | rfl | rfl := op_cases op
  · exact ⟨.idle, rfl, exec_completes _⟩
  · exact ⟨.reset, rfl, exec_completes _⟩
  · exact ⟨.encode [], rfl, exec_completes _⟩
  · exact ⟨.decode [], rfl, exec_completes _⟩

/-- At the first step size, 7, magnitude 0 stands for the difference 7 / 8 = 0. -/
theorem dq_stepAt_zero_of_magnitude_zero : ∀ c : Code, c.toNat % 8 = 0 → dq c (stepAt 0) = 0 := by decide

/-- RECON of a code of magnitude 0 moves the index down from every index but 0, where the difference is 0. -/
theorem Codec.recon_regs_eq_iff_of_magnitude_zero {c : Code} (hc : c.toNat % 8 = 0) (k : Codec) :
    (k.recon c).regs = k.regs ↔ k.si = 0 := by
  have hadj : indexAt c = -1 := (indexAt_of_magnitude c).1.mpr (by omega)
  have hindex := Codec.recon_si_val c k
  rw [hadj] at hindex
  rw [Codec.regs_eq_iff]
  constructor
  · rintro ⟨-, hsi⟩
    rw [hsi] at hindex
    exact Fin.ext (by simp only [Fin.val_zero]; omega)
  · intro hzero
    have hdist := Codec.recon_ps_dist_le c k
    rw [hzero, dq_stepAt_zero_of_magnitude_zero c hc] at hdist
    rw [hzero] at hindex ⊢
    exact ⟨BitVec.eq_of_toInt_eq (by omega), Fin.ext (by simpa using hindex)⟩

/-- Settles O16: P0 and N0 are DEC_STEP of the two codes of magnitude 0, which leaves the registers RECON leaves. -/
theorem zeroMagnitudeCodesRestOnlyAtIndexZero : Obligations.ZeroMagnitudeCodesRestOnlyAtIndexZero := by
  rintro i s (rfl | rfl)
  · exact ⟨_, exec_decodeCode 0b0000#4 s, Codec.recon_regs_eq_iff_of_magnitude_zero (by decide) s.cur⟩
  · exact ⟨_, exec_decodeCode 0b1000#4 s, Codec.recon_regs_eq_iff_of_magnitude_zero (by decide) s.cur⟩

end Sys2Proof.Machine
end

section
/-! The datapath family (40_common_datapath.md): the clamp, the reconstructed difference and the move of the index.
Both clamped results are known in integers (`Codec.recon_ps_toInt`, `Codec.recon_si_val`); what is added here are the
bounds of the unclamped values, and the run of the index through several codes. -/

namespace Sys2Proof.Machine

/-! ## The clamp (R70) -/

/-- Settles O10: each branch of CLAMP by its condition, and the bounds from its form as a maximum of a minimum. -/
theorem clampSaturates : Obligations.ClampSaturates := by
  intro v lo hi hle
  rw [clamp_eq_max_min hle]
  refine ⟨fun hbelow => ?_, fun habove => ?_, fun hlo hhi => ?_, le_max_left lo _, ?_⟩
  · exact max_eq_left ((min_le_right hi v).trans hbelow.le)
  · rw [min_eq_left habove.le, max_eq_right hle]
  · rw [min_eq_right hhi, max_eq_right hlo]
  · exact max_le hle (min_le_left hi v)

/-! ## The reconstructed difference (R73, R79 to R81) -/

theorem eighth_le_dq (c : Code) (step : Nat) : eighth step ≤ dq c step := by
  rw [dq]
  omega

/-- The greatest difference is that of magnitude 7 at the greatest step size: 4095 + 32767 + 16383 + 8191. -/
theorem dq_stepAt_le (c : Code) (i : StepIndex) : dq c (stepAt i) ≤ 61436 := by
  obtain ⟨-, hstep⟩ := stepAt_bounds i
  calc dq c (stepAt i)
      ≤ dq 0b0111#4 (stepAt i) := dq_le_dq_seven c (stepAt i)
    _ = stepAt i / 8 + stepAt i + stepAt i / 2 + stepAt i / 4 := by
        rw [← eighth_eq_div, ← half_eq_div, ← quarter_eq_div]; rfl
    _ ≤ 61436 := by omega

/-- At the first step size every magnitude but 0 adds a positive share: the converse of
`dq_stepAt_zero_of_magnitude_zero`. -/
theorem magnitude_zero_of_dq_stepAt_zero : ∀ c : Code, dq c (stepAt 0) = 0 → c.toNat % 8 = 0 := by decide

/-- Above index 0 the eighth of the step size alone is positive. -/
theorem dq_stepAt_eq_zero_iff (c : Code) (i : StepIndex) :
    dq c (stepAt i) = 0 ↔ i = 0 ∧ c.toNat % 8 = 0 := by
  constructor
  · intro hdq
    have hindex : i = 0 := (stepAt_shiftRight_three_eq_zero i).mp (Nat.le_zero.mp (hdq ▸ eighth_le_dq c (stepAt i)))
    subst hindex
    exact ⟨rfl, magnitude_zero_of_dq_stepAt_zero c hdq⟩
  · rintro ⟨rfl, hmag⟩
    exact dq_stepAt_zero_of_magnitude_zero c hmag

/-- Settles O12: a count over the table's values, as R80 gives it. -/
theorem differenceIsNotTheProductForm : Obligations.DifferenceIsNotTheProductForm :=
  ⟨by decide, by decide, by decide, by decide⟩

/-! ## The ranges of the unclamped values (R79) -/

theorem sample_sub_bounds (x p : Sample) : -65535 ≤ x.toInt - p.toInt ∧ x.toInt - p.toInt ≤ 65535 := by
  have hx := sample_toInt_bounds x
  have hp := sample_toInt_bounds p
  omega

@[simp] theorem predictorSum_false (p : Int) (d : Nat) : predictorSum false p d = p + d := rfl
@[simp] theorem predictorSum_true (p : Int) (d : Nat) : predictorSum true p d = p - d := rfl

theorem predictorSum_bounds (negative : Bool) (c : Code) (i : StepIndex) (p : Sample) :
    -94204 ≤ predictorSum negative p.toInt (dq c (stepAt i)) ∧
    predictorSum negative p.toInt (dq c (stepAt i)) ≤ 94203 := by
  have hp := sample_toInt_bounds p
  have hd := dq_stepAt_le c i
  cases negative with
  | false => rw [predictorSum_false]; omega
  | true => rw [predictorSum_true]; omega

theorem index_add_indexAt_bounds (c : Code) (i : StepIndex) :
    -1 ≤ (i.val : Int) + indexAt c ∧ (i.val : Int) + indexAt c ≤ 96 := by
  have hadj := indexAt_bounds c
  have hi := i.isLt
  omega

/-- Settles O13: the bounds of each quantity, and for each bound the operands that R79 names as attaining it. -/
theorem intermediatesStayInTheirRanges : Obligations.IntermediatesStayInTheirRanges :=
  ⟨sample_sub_bounds, ⟨0x7FFF#16, 0x8000#16, by decide⟩, ⟨0x8000#16, 0x7FFF#16, by decide⟩,
    stepAt_bounds, rfl, rfl, dq_stepAt_le, ⟨rfl, rfl⟩,
    fun code => predictorSum_bounds (code[3]) code,
    ⟨0xF#4, 88, 0x8000#16, by decide⟩, ⟨0x7#4, 88, 0x7FFF#16, by decide⟩,
    index_add_indexAt_bounds, ⟨0x0#4, 0, by decide⟩, ⟨0x7#4, 88, by decide⟩⟩

/-! ## When the predictor clamp acts (R81) -/

/-- Adding a difference to a predictor in range can leave the range only above. -/
theorem Codec.recon_ps_ne_add_iff {code : Code} (hsign : code[3] = false) (k : Codec) :
    (k.recon code).ps.toInt ≠ k.ps.toInt + dq code (stepAt k.si) ↔ k.ps.toInt + dq code (stepAt k.si) > 32767 := by
  have hp := sample_toInt_bounds k.ps
  rw [Codec.recon_ps_toInt, hsign, predictorSum_false]
  omega

/-- Subtracting a difference from a predictor in range can leave the range only below. -/
theorem Codec.recon_ps_ne_sub_iff {code : Code} (hsign : code[3] = true) (k : Codec) :
    (k.recon code).ps.toInt ≠ k.ps.toInt - dq code (stepAt k.si) ↔ k.ps.toInt - dq code (stepAt k.si) < -32768 := by
  have hp := sample_toInt_bounds k.ps
  rw [Codec.recon_ps_toInt, hsign, predictorSum_true]
  omega

/-- Settles O14: for each sign only one of the two bounds can be passed. -/
theorem predictorClampActsExactlyOnOverflow : Obligations.PredictorClampActsExactlyOnOverflow :=
  ⟨fun _ k hsign => Codec.recon_ps_ne_add_iff hsign k, fun _ k hsign => Codec.recon_ps_ne_sub_iff hsign k,
    dq_stepAt_eq_zero_iff⟩

/-! ## How the index moves (R82) -/

theorem Codec.recon_si_of_magnitude_le_three {c : Code} (hc : c.toNat % 8 ≤ 3) (k : Codec) :
    (k.recon c).si.val = k.si.val - 1 := by
  have hadj : indexAt c = -1 := (indexAt_of_magnitude c).1.mpr hc
  have hindex := Codec.recon_si_val c k
  have hi := k.si.isLt
  omega

theorem Codec.recon_si_of_four_le_magnitude {c : Code} (hc : 4 ≤ c.toNat % 8) (k : Codec) :
    (k.recon c).si.val = min 88 (k.si.val + 2 * (c.toNat % 8 - 3)) := by
  have hadj : indexAt c = 2 * ((c.toNat % 8 : Int) - 3) := (indexAt_of_magnitude c).2 hc
  have hindex := Codec.recon_si_val c k
  omega

/-- Codes of magnitude 7 climb by 8 each, up to 88. -/
theorem Codec.reconAll_si_of_magnitude_seven {cs : List Code} (hcs : ∀ c ∈ cs, c.toNat % 8 = 7) (k : Codec) :
    (Codec.reconAll cs k).si.val = min 88 (k.si.val + 8 * cs.length) := by
  induction cs generalizing k with
  | nil =>
    have hi := k.si.isLt
    simp only [Codec.reconAll, List.length_nil]
    omega
  | cons c rest ih =>
    obtain ⟨hc, hrest⟩ := List.forall_mem_cons.mp hcs
    have hfirst := Codec.recon_si_of_four_le_magnitude (c := c) (by omega) k
    rw [Codec.reconAll, ih hrest, hfirst, List.length_cons]
    omega

/-- Codes of magnitude at most 3 descend by 1 each, down to 0. -/
theorem Codec.reconAll_si_of_magnitude_le_three {cs : List Code} (hcs : ∀ c ∈ cs, c.toNat % 8 ≤ 3) (k : Codec) :
    (Codec.reconAll cs k).si.val = k.si.val - cs.length := by
  induction cs generalizing k with
  | nil => rfl
  | cons c rest ih =>
    obtain ⟨hc, hrest⟩ := List.forall_mem_cons.mp hcs
    rw [Codec.reconAll, ih hrest, Codec.recon_si_of_magnitude_le_three hc, List.length_cons]
    omega

/-- Settles O15: one code by the adjustment of its magnitude, and a run of codes by induction on the run. -/
theorem indexMovesWithTheMagnitude : Obligations.IndexMovesWithTheMagnitude := by
  refine ⟨fun c k hc => Codec.recon_si_of_magnitude_le_three hc k,
    fun c k hc => Codec.recon_si_of_four_le_magnitude hc k, ?_, ?_⟩
  · rintro cs k hzero hcs n hn rfl
    rw [Codec.reconAll_si_of_magnitude_seven hcs, hzero, Fin.val_zero]
    omega
  · intro cs k htop hcs hlength
    apply Fin.ext
    rw [Codec.reconAll_si_of_magnitude_le_three hcs, htop, hlength]
    rfl

end Sys2Proof.Machine
end

section
/-! The control family (41_reset.md): the two commands that take no data. -/

namespace Sys2Proof.Machine

/-- RESET is one write of the register pair of the selected instance (R85). -/
theorem exec_reset (s : State) : exec .reset s = .next (s.updCur (Codec.setRegs 0#16 0)) := rfl

/-- IDLE answers the state it is given (R86). -/
theorem exec_idle (s : State) : exec .idle s = .next s := rfl

/-- Settles O4: the select value is the one `encode` gives RESET (O29), and the write of the register pair leaves
every other field of the instance, and every other instance, as it was. -/
theorem resetWritesZeroToBothRegisters : Obligations.ResetWritesZeroToBothRegisters :=
  ⟨decodeOfEncodeIsTheInstruction .reset, exec_reset⟩

/-- Settles O5: the select value is the one `encode` gives IDLE (O29), and IDLE is the identity. -/
theorem idleIsTheIdentity : Obligations.IdleIsTheIdentity :=
  ⟨decodeOfEncodeIsTheInstruction .idle, exec_idle⟩

end Sys2Proof.Machine
end

section
/-! The encode family (42_encode.md). ENCODE is three loops that do not disturb each other: RECON of all codes, PACK of
all codes, FLUSH (`Codec.encodeSamples_eq_packAll`, `Codec.encodeCommand_eq`). So the registers are those of `reconAll`
and the bytes are the codes in pairs (`pairBytes`), and each statement about ENCODE is one about these two. -/

namespace Sys2Proof.Machine

/-! ## The packer (R90) -/

theorem packByte_zero_toNat (c : Code) : (packByte 0#4 c).toNat = c.toNat := by
  simp [packByte_toNat]

/-- PACK of two codes from an empty buffer delivers their byte. -/
theorem Codec.pack_pack {k : Codec} (h : k.pendValid = false) (a b : Code) :
    (k.pack a).pack b = { k with pend := a, pendValid := false, out := k.out ++ [.byte (packByte b a)] } := by
  rw [Codec.pack_of_not_valid h, Codec.pack_of_valid rfl]

/-- A lone code leaves the buffer with a zero high nibble. -/
theorem Codec.flush_pack {k : Codec} (h : k.pendValid = false) (a : Code) :
    (k.pack a).flush = { k with pend := a, pendValid := false, out := k.out ++ [.byte (packByte 0#4 a)] } := by
  rw [Codec.pack_of_not_valid h, Codec.flush_of_valid rfl]

/-- Settles O17: the two branches of PACK and of FLUSH, each on the buffer the statement names. -/
theorem packerPairsCodesLowNibbleFirst : Obligations.PackerPairsCodesLowNibbleFirst := by
  intro k a b h
  exact ⟨Codec.pack_of_not_valid h a, ⟨packByte b a, a, Codec.pack_pack h a b, packByte_toNat b a⟩,
    ⟨packByte 0#4 a, a, Codec.flush_pack h a, packByte_zero_toNat a⟩, Codec.flush_of_not_valid h⟩

/-- The bytes that carry some codes: two codes to a byte, the earlier one in the low nibble, a lone last one with a
zero high nibble. -/
def pairBytes : List Code → List Byte
  | [] => []
  | [a] => [packByte 0#4 a]
  | a :: b :: rest => packByte b a :: pairBytes rest

@[simp] theorem pairBytes_nil : pairBytes [] = [] := rfl
@[simp] theorem pairBytes_singleton (a : Code) : pairBytes [a] = [packByte 0#4 a] := rfl
@[simp] theorem pairBytes_cons_cons (a b : Code) (rest : List Code) :
    pairBytes (a :: b :: rest) = packByte b a :: pairBytes rest := rfl

theorem pairBytes_length (cs : List Code) : (pairBytes cs).length = (cs.length + 1) / 2 := by
  induction cs using pairBytes.induct with
  | case1 => rfl
  | case2 a => simp
  | case3 a b rest ih =>
    simp only [pairBytes_cons_cons, List.length_cons, ih]
    omega

/-- Byte `k` carries the codes `2k` and `2k + 1`, where a code after the last one counts as 0. -/
theorem eq_packByte_of_pairBytes_getElem? {cs : List Code} {k : Nat} {v : Byte} (h : (pairBytes cs)[k]? = some v) :
    v = packByte (cs.getD (2 * k + 1) 0#4) (cs.getD (2 * k) 0#4) := by
  induction cs using pairBytes.induct generalizing k with
  | case1 => simp at h
  | case2 a =>
    obtain ⟨rfl, rfl⟩ : k = 0 ∧ packByte 0#4 a = v := by
      simpa [List.getElem?_singleton] using h
    rfl
  | case3 a b rest ih =>
    cases k with
    | zero => simpa using h.symm
    | succ k => exact ih h

/-- The last byte of an odd number of codes has a zero high nibble. -/
theorem highNibble_getLast?_pairBytes {cs : List Code} (h : cs.length % 2 = 1) :
    ∃ v, (pairBytes cs).getLast? = some v ∧ highNibble v = 0#4 := by
  induction cs using pairBytes.induct with
  | case1 => simp at h
  | case2 a => exact ⟨packByte 0#4 a, rfl, highNibble_packByte 0#4 a⟩
  | case3 a b rest ih =>
    rw [List.length_cons, List.length_cons] at h
    obtain ⟨v, hv, hzero⟩ := ih (by omega)
    exact ⟨v, by simp [List.getLast?_cons, hv], hzero⟩

/-- The first byte begins with the first code. -/
theorem lowNibble_head?_pairBytes (cs : List Code) : (pairBytes cs).head?.map lowNibble = cs.head? := by
  induction cs using pairBytes.induct with
  | case1 => rfl
  | case2 a => simp
  | case3 a b rest ih => simp

/-! ## ENCODE as RECON of all codes, PACK of all codes, FLUSH (R91) -/

/-- PACK of some codes in order. -/
def Codec.packAll : List Code → Codec → Codec
  | [], k => k
  | c :: rest, k => Codec.packAll rest (k.pack c)

/-- From an empty buffer the codes go out in pairs; nothing else changes but `pend`. -/
theorem Codec.flush_packAll {k : Codec} (h : k.pendValid = false) (cs : List Code) :
    ∃ held, (Codec.packAll cs k).flush = { k with pend := held, out := k.out ++ (pairBytes cs).map .byte } := by
  induction cs using pairBytes.induct generalizing k with
  | case1 => exact ⟨k.pend, by simp [Codec.packAll, Codec.flush_of_not_valid h]⟩
  | case2 a => exact ⟨a, by simp [Codec.packAll, Codec.flush_pack h, h]⟩
  | case3 a b rest ih =>
    obtain ⟨held, hrest⟩ := ih (k := (k.pack a).pack b) (by simp [h])
    refine ⟨held, ?_⟩
    rw [Codec.packAll, Codec.packAll, hrest, Codec.pack_pack h]
    simp [h]

/-- The packer and the registers are separate state. -/
theorem Codec.recon_pack (c d : Code) (k : Codec) : (k.pack c).recon d = (k.recon d).pack c := by
  cases h : k.pendValid with
  | false => rw [Codec.pack_of_not_valid h, Codec.pack_of_not_valid (k := k.recon d) h]; rfl
  | true => rw [Codec.pack_of_valid h, Codec.pack_of_valid (k := k.recon d) h]; rfl

theorem Codec.reconAll_pack (c : Code) (ds : List Code) (k : Codec) :
    Codec.reconAll ds (k.pack c) = (Codec.reconAll ds k).pack c := by
  induction ds generalizing k with
  | nil => rfl
  | cons d rest ih => rw [Codec.reconAll, Codec.recon_pack, ih, Codec.reconAll]

theorem Codec.reconAll_clearPend (cs : List Code) (k : Codec) :
    Codec.reconAll cs k.clearPend = (Codec.reconAll cs k).clearPend := by
  induction cs generalizing k with
  | nil => rfl
  | cons c rest ih => exact ih (k.recon c)

/-- RECON of some codes writes the two registers and nothing else. -/
theorem Codec.reconAll_eq_setRegs (cs : List Code) (k : Codec) :
    Codec.reconAll cs k = k.setRegs (Codec.reconAll cs k).ps (Codec.reconAll cs k).si := by
  induction cs generalizing k with
  | nil => rfl
  | cons c rest ih => exact ih (k.recon c)

/-- The loop of ENCODE is RECON of all its codes, then PACK of all its codes. -/
theorem Codec.encodeSamples_eq_packAll (xs : List Sample) (k : Codec) :
    Codec.encodeSamples xs k = Codec.packAll (codesOf xs k) (Codec.reconAll (codesOf xs k) k) := by
  induction xs generalizing k with
  | nil => rfl
  | cons x rest ih =>
    have hcodes : codesOf rest (k.encodeSample x) = codesOf rest (k.recon (k.codeFor x)) :=
      codesOf_congr (Codec.encodeSample_regs x k) rest
    rw [Codec.encodeSamples, ih, hcodes, codesOf, Codec.reconAll, Codec.packAll, ← Codec.reconAll_pack]
    rfl

/-- What ENCODE makes of the selected codec. -/
def Codec.encodeCommand (xs : List Sample) (k : Codec) : Codec := (Codec.encodeSamples xs k.clearPend).flush

theorem exec_encode (xs : List Sample) (s : State) :
    exec (.encode xs) s = .next (s.updCur (Codec.encodeCommand xs)) := rfl

theorem Codec.encodeCommand_eq (xs : List Sample) (k : Codec) :
    ∃ held, k.encodeCommand xs = { k with
      ps := (Codec.reconAll (codesOf xs k) k).ps
      si := (Codec.reconAll (codesOf xs k) k).si
      pend := held
      pendValid := false
      out := k.out ++ (pairBytes (codesOf xs k)).map .byte } := by
  have hcodes : codesOf xs k.clearPend = codesOf xs k := codesOf_congr (Codec.regs_clearPend k) xs
  obtain ⟨held, hflush⟩ := Codec.flush_packAll
    (Codec.clearPend_pendValid (Codec.reconAll (codesOf xs k) k)) (codesOf xs k)
  refine ⟨held, ?_⟩
  rw [Codec.encodeCommand, Codec.encodeSamples_eq_packAll, hcodes, Codec.reconAll_clearPend, hflush,
    Codec.reconAll_eq_setRegs]
  rfl

@[simp] theorem Codec.encodeCommand_regs (xs : List Sample) (k : Codec) :
    (k.encodeCommand xs).regs = (Codec.reconAll (codesOf xs k) k).regs := by
  obtain ⟨held, h⟩ := k.encodeCommand_eq xs
  rw [h]
  rfl

@[simp] theorem Codec.encodeCommand_out (xs : List Sample) (k : Codec) :
    (k.encodeCommand xs).out = k.out ++ (pairBytes (codesOf xs k)).map .byte := by
  obtain ⟨held, h⟩ := k.encodeCommand_eq xs
  rw [h]

/-- Settles O7: the select value is the one `encode` gives an ENCODE of nothing (O29), and the codes go out in pairs. -/
theorem encodeEmitsItsCodesInPairs : Obligations.EncodeEmitsItsCodesInPairs := by
  refine ⟨decodeOfEncodeIsTheInstruction (.encode []), fun xs s => ?_⟩
  obtain ⟨held, h⟩ := s.cur.encodeCommand_eq xs
  refine ⟨pairBytes (codesOf xs s.cur), held, ?_, ?_, fun k v hv => ?_⟩
  · rw [exec_encode, State.updCur, h]
  · rw [pairBytes_length, codesOf_length]
  · rw [eq_packByte_of_pairBytes_getElem? hv, packByte_toNat]

/-! ## QUANT in closed form (R88, R94) -/

theorem codeOfBits_magnitude : ∀ s m2 m1 m0 : Bool,
    (codeOfBits s m2 m1 m0).toNat % 8 = 4 * m2.toNat + 2 * m1.toNat + m0.toNat := by decide

@[simp] theorem isNegative_iff (diff : Int) : isNegative diff = true ↔ diff < 0 := decide_eq_true_iff
@[simp] theorem meets_iff (remainder threshold : Int) : meets remainder threshold = true ↔ threshold ≤ remainder :=
  decide_eq_true_iff

/-- QUANT negates a negative difference only, so what it compares with the thresholds is the absolute value. -/
theorem negate_if_negative (diff : Int) : (if isNegative diff then -diff else diff) = diff.natAbs := by
  simp only [isNegative_iff]
  split <;> omega

/-- The greedy quantizer: a bit is set exactly when its threshold still fits, on top of the thresholds of the bits
already set, into the absolute difference. -/
theorem quant_greedy (s p : Int) (step : Nat) : ∃ m2 m1 m0 : Bool,
    quant s p step = codeOfBits (isNegative (s - p)) m2 m1 m0 ∧
    (m2 = true ↔ step ≤ (s - p).natAbs) ∧
    (m1 = true ↔ (if m2 then step else 0) + step / 2 ≤ (s - p).natAbs) ∧
    (m0 = true ↔ (if m2 then step else 0) + (if m1 then step / 2 else 0) + step / 4 ≤ (s - p).natAbs) := by
  unfold quant
  simp only [negate_if_negative, half_eq_div, quarter_eq_div]
  refine ⟨_, _, _, rfl, ?_, ?_, ?_⟩
  · rw [meets_iff]
    omega
  · rw [meets_iff]
    split <;> omega
  · rw [meets_iff]
    split <;> split <;> omega

/-- Settles O9: the eight patterns of the magnitude bits are the eight intervals, which the order of the thresholds
`q ≤ h < h + q < step` keeps apart. -/
theorem quantMagnitudeIsTheIntervalNumber : Obligations.QuantMagnitudeIsTheIntervalNumber := by
  rintro x p i step q h hstep rfl rfl a code rfl rfl
  have hlow : 7 ≤ step := hstep ▸ (stepAt_bounds i).1
  obtain ⟨m2, m1, m0, hcode, h2, h1, h0⟩ := quant_greedy x.toInt p.toInt step
  obtain ⟨hsign, -, -, -⟩ := codeOfBits_bits (isNegative (x.toInt - p.toInt)) m2 m1 m0
  have hmag := codeOfBits_magnitude (isNegative (x.toInt - p.toInt)) m2 m1 m0
  rw [← hcode] at hmag hsign
  refine ⟨by rw [hsign, isNegative_iff]; omega, ?_⟩
  -- each pattern of the three bits bounds the absolute difference by the two ends of its interval
  clear hcode hsign
  cases m2 <;> cases m1 <;> cases m0 <;> simp at h2 h1 h0 hmag <;> omega

/-! ## Chunking (R95) -/

/-- The packer is where it was after an even number of samples. -/
theorem Codec.encodeSamples_pendValid_of_even {xs : List Sample} (h : xs.length % 2 = 0) (k : Codec) :
    (Codec.encodeSamples xs k).pendValid = k.pendValid :=
  match xs with
  | [] => rfl
  | [x] => by simp at h
  | x :: y :: rest => by
    rw [List.length_cons, List.length_cons] at h
    rw [Codec.encodeSamples, Codec.encodeSamples, Codec.encodeSamples_pendValid_of_even (xs := rest) (by omega)]
    simp

theorem Codec.clearPend_of_not_valid {k : Codec} (h : k.pendValid = false) : k.clearPend = k := by
  rw [Codec.clearPend, ← h]

/-- Settles O19: after an even number of samples the buffer is empty, so neither FLUSH nor the clearing at the start of
the second command does anything. -/
theorem evenChunksEncodeLikeOneCommand : Obligations.EvenChunksEncodeLikeOneCommand := by
  intro xs ys s heven
  have hempty : (Codec.encodeSamples xs s.cur.clearPend).pendValid = false := by
    rw [Codec.encodeSamples_pendValid_of_even heven, Codec.clearPend_pendValid]
  have hchunks : (s.cur.encodeCommand xs).encodeCommand ys = s.cur.encodeCommand (xs ++ ys) := by
    rw [Codec.encodeCommand, Codec.encodeCommand, Codec.encodeCommand, Codec.flush_of_not_valid hempty,
      Codec.clearPend_of_not_valid hempty, Codec.encodeSamples_append]
  simp only [exec_encode, andThen_next, State.updCur_updCur]
  rw [State.updCur, hchunks, State.updCur]

/-- The codes of a second command are those the samples would have had in the first, whatever the parity. -/
theorem codesOf_append_encodeCommand (xs ys : List Sample) (k : Codec) :
    codesOf (xs ++ ys) k = codesOf xs k ++ codesOf ys (k.encodeCommand xs) := by
  rw [codesOf_append, codesOf_congr (Codec.encodeCommand_regs xs k)]

/-- The registers after two commands are those after one, whatever the parity. -/
theorem Codec.encodeCommand_encodeCommand_regs (xs ys : List Sample) (k : Codec) :
    ((k.encodeCommand xs).encodeCommand ys).regs = (k.encodeCommand (xs ++ ys)).regs := by
  rw [Codec.encodeCommand_regs, Codec.encodeCommand_regs, codesOf_append_encodeCommand, Codec.reconAll_append]
  exact Codec.reconAll_congr (Codec.encodeCommand_regs xs k) _

/-- Settles O20: the codes and the registers do not depend on the chunks; each command delivers its own codes in pairs,
and an odd number of them ends in a padded byte. -/
theorem oddChunksKeepCodesAndPadTheByte : Obligations.OddChunksKeepCodesAndPadTheByte := by
  intro xs ys s hodd
  refine ⟨_, _, _, pairBytes (codesOf xs s.cur), pairBytes (codesOf ys (s.cur.encodeCommand xs)),
    exec_encode xs s, exec_encode ys _, exec_encode (xs ++ ys) s,
    s.cur.encodeCommand_encodeCommand_regs xs ys, codesOf_append_encodeCommand xs ys s.cur,
    s.cur.encodeCommand_out xs, ?_, ?_, ?_, ?_, fun b hb => ?_⟩
  · rw [← Codec.encodeCommand_out]
    exact (s.cur.encodeCommand xs).encodeCommand_out ys
  · rw [pairBytes_length, codesOf_length]
  · rw [pairBytes_length, codesOf_length]
  · exact highNibble_getLast?_pairBytes (by rwa [codesOf_length])
  · rw [State.updCur_cur, ← lowNibble_head?_pairBytes, hb, Option.map_some]

/-! ## The encoder carries a decoder (R93) -/

/-- DEC_STEP of some codes leaves the registers of RECON of them. -/
theorem Codec.decSteps_regs (cs : List Code) (k : Codec) :
    (Codec.decSteps cs k).regs = (Codec.reconAll cs k).regs := by
  induction cs generalizing k with
  | nil => rfl
  | cons c rest ih => exact (ih (k.decStep c)).trans (Codec.reconAll_congr (Codec.decStep_regs c k) rest)

theorem codesOf_take (n : Nat) (xs : List Sample) (k : Codec) : (codesOf xs k).take n = codesOf (xs.take n) k := by
  induction xs generalizing n k with
  | nil => simp [codesOf]
  | cons x rest ih =>
    cases n with
    | zero => rfl
    | succ n => simp [codesOf, ih]

/-- DEC_STEP of the codes of an ENCODE delivers the encoder's predictors. -/
theorem Codec.decSteps_codesOf_out {k l : Codec} (h : k.regs = l.regs) (xs : List Sample) :
    (Codec.decSteps (codesOf xs k) l).out = l.out ++ (predictorsOf xs k).map .sample := by
  induction xs generalizing k l with
  | nil => simp [codesOf, predictorsOf, Codec.decSteps]
  | cons x rest ih =>
    have hregs := Codec.recon_regs_congr h (k.codeFor x)
    obtain ⟨hps, -⟩ := (Codec.regs_eq_iff _ _).mp hregs
    rw [codesOf, Codec.decSteps, ih (l := l.decStep (k.codeFor x)) hregs, predictorsOf, Codec.decStep_eq, hps]
    simp

/-- The predictor after `n + 1` samples is the one RECON of `n + 1` codes leaves. -/
theorem predictorsOf_getElem? {n : Nat} {xs : List Sample} (h : n < xs.length) (k : Codec) :
    (predictorsOf xs k)[n]? = some (Codec.reconAll (codesOf (xs.take (n + 1)) k) k).ps := by
  induction xs generalizing n k with
  | nil => simp at h
  | cons x rest ih =>
    cases n with
    | zero => rfl
    | succ n => exact ih (Nat.lt_of_succ_lt_succ h) (k.recon (k.codeFor x))

/-- Settles O22: both sides are RECON of the same codes from the same registers. -/
theorem encoderCarriesADecoder : Obligations.EncoderCarriesADecoder := by
  intro xs k l hregs
  refine ⟨Codec.decSteps_codesOf_out hregs xs, fun n => ?_, fun n hn => ?_⟩
  · rw [codesOf_take, Codec.decSteps_regs, Codec.encodeSamples_regs, Codec.reconAll_congr hregs]
  · obtain ⟨hps, -⟩ := (Codec.regs_eq_iff _ _).mp (Codec.encodeSamples_regs (xs.take (n + 1)) k)
    rw [predictorsOf_getElem? hn, hps]

/-! ## Results depend on the registers and the input (R96) -/

/-- A function of codecs whose new registers and whose delivered items are determined by the registers before. -/
def DependsOnRegs (f : Codec → Codec) : Prop :=
  ∀ k l : Codec, k.regs = l.regs →
    (f k).regs = (f l).regs ∧ ∃ emitted, (f k).out = k.out ++ emitted ∧ (f l).out = l.out ++ emitted

theorem dependsOnRegs_id : DependsOnRegs id :=
  fun k l h => ⟨h, [], (List.append_nil k.out).symm, (List.append_nil l.out).symm⟩

theorem DependsOnRegs.comp {f g : Codec → Codec} (hg : DependsOnRegs g) (hf : DependsOnRegs f) :
    DependsOnRegs (fun k => g (f k)) := by
  intro k l h
  obtain ⟨hregs, first, hk, hl⟩ := hf k l h
  obtain ⟨hregs', second, hk', hl'⟩ := hg (f k) (f l) hregs
  exact ⟨hregs', first ++ second, by rw [hk', hk, List.append_assoc], by rw [hl', hl, List.append_assoc]⟩

theorem dependsOnRegs_setRegs (p : Sample) (i : StepIndex) : DependsOnRegs (Codec.setRegs p i) :=
  fun k l _ => ⟨rfl, [], (List.append_nil k.out).symm, (List.append_nil l.out).symm⟩

theorem dependsOnRegs_decStep (c : Code) : DependsOnRegs (Codec.decStep c) := by
  intro k l h
  have hregs := Codec.recon_regs_congr h c
  obtain ⟨hps, -⟩ := (Codec.regs_eq_iff _ _).mp hregs
  exact ⟨hregs, [.sample (k.recon c).ps], rfl, by rw [hps]; rfl⟩

theorem dependsOnRegs_decSteps (cs : List Code) : DependsOnRegs (Codec.decSteps cs) := by
  induction cs with
  | nil => exact dependsOnRegs_id
  | cons c rest ih => exact ih.comp (dependsOnRegs_decStep c)

theorem dependsOnRegs_decodeBytes (bs : List Byte) : DependsOnRegs (Codec.decodeBytes bs) := by
  rw [funext (Codec.decodeBytes_eq_decSteps bs)]
  exact dependsOnRegs_decSteps _

theorem dependsOnRegs_encodeCommand (xs : List Sample) : DependsOnRegs (Codec.encodeCommand xs) := by
  intro k l h
  refine ⟨?_, (pairBytes (codesOf xs k)).map .byte, k.encodeCommand_out xs, ?_⟩
  · rw [Codec.encodeCommand_regs, Codec.encodeCommand_regs, codesOf_congr h, Codec.reconAll_congr h]
  · rw [Codec.encodeCommand_out, codesOf_congr h]

/-- An instruction is one of the sixteen codes or one of the four commands. -/
theorem code_or_command (i : Instr) : (∃ c, i = decodeCode c) ∨
    i = .idle ∨ i = .reset ∨ (∃ xs, i = .encode xs) ∨ (∃ bs, i = .decode bs) := by
  have hdecode := decodeOfEncodeIsTheInstruction i
  cases hencode : encode i with
  | code c =>
    rw [hencode] at hdecode
    cases hdecode
    exact .inl ⟨c, rfl⟩
  | command f =>
    rw [hencode] at hdecode
    exact .inr (decodeFrame_command hdecode)

/-- What an instruction makes of the selected codec depends on its registers alone. -/
theorem exec_dependsOnRegs (i : Instr) :
    ∃ f : Codec → Codec, DependsOnRegs f ∧ ∀ s, exec i s = .next (s.updCur f) := by
  obtain ⟨c, rfl⟩ | rfl | rfl | ⟨xs, rfl⟩ | ⟨bs, rfl⟩ := code_or_command i
  · exact ⟨_, dependsOnRegs_decStep c, exec_decodeCode c⟩
  · exact ⟨id, dependsOnRegs_id, exec_idle⟩
  · exact ⟨_, dependsOnRegs_setRegs 0#16 0, exec_reset⟩
  · exact ⟨_, dependsOnRegs_encodeCommand xs, exec_encode xs⟩
  · exact ⟨_, dependsOnRegs_decodeBytes bs, fun _ => rfl⟩

/-- Settles O24: every instruction is a function of the selected codec that depends on its registers alone. -/
theorem resultsDependOnlyOnRegistersAndInput : Obligations.ResultsDependOnlyOnRegistersAndInput := by
  intro i s u h
  obtain ⟨f, hf, hexec⟩ := exec_dependsOnRegs i
  obtain ⟨hregs, emitted, hs, hu⟩ := hf s.cur u.cur h
  exact ⟨s.updCur f, u.updCur f, emitted, hexec s, hexec u, hregs, hs, hu⟩

/-! ## One sample per micro-step (R89, R91) -/

/-- In a running ENCODE a micro-step is one sample of its loop. -/
theorem microStep_of_encoding {s : State} {pos : Nat} {rest : List Sample} (hjob : s.cur.job = .encoding pos rest) :
    microStep s = .next (s.updCur (Codec.encodeNext pos rest)) := by
  rw [microStep, hjob]

/-- Settles O35: with no turn listed a step is a micro-step, and `encodeNext` takes one sample by ENC_STEP and PACK. -/
theorem encodeTakesOneSamplePerStep : Obligations.EncodeTakesOneSamplePerStep := by
  intro s pos x hturns
  rw [step_of_no_turns hturns]
  exact ⟨fun y more hjob => microStep_of_encoding hjob, fun hjob => microStep_of_encoding hjob⟩

end Sys2Proof.Machine
end

section
/-! The decode family (43_decode.md). The meaning of a code is DEC_STEP (`exec_decodeCode`), so the sixteen rules are
rows of one rule (`codeRule_decodeCode`). DECODE is DEC_STEP of the nibbles of its bytes, and what DEC_STEP of a list
of codes leaves is said once (`Codec.decSteps_eq`). -/

namespace Sys2Proof.Machine

/-! ## The sixteen codes (R98 to R114) -/

/-- Settles O3: in each of the sixteen cases the rule's difference and adjustment are those of the code. -/
theorem sixteenCodesAreDecStepWrittenOut : Obligations.SixteenCodesAreDecStepWrittenOut := exec_decodeCode

/-- The `d` line of a code as a function of `e`, `q`, `h` and `step`, in the order in which DQ adds. -/
def dLine (code : Code) (e q h step : Nat) : Nat :=
  e + (if code[2] then step else 0) + (if code[1] then h else 0) + (if code[0] then q else 0)

theorem dq_eq_dLine (code : Code) (step : Nat) : dq code step = dLine code (step / 8) (step / 4) (step / 2) step := by
  rw [dq, dLine, eighth_eq_div, half_eq_div, quarter_eq_div]

/-- The sign with which the difference of a code counts. -/
def signOf (code : Code) : Int := if code[3] then -1 else 1

theorem predictorSum_eq_add_signOf_mul (code : Code) (p : Int) (d : Nat) :
    predictorSum code[3] p d = p + signOf code * d := by
  rw [predictorSum, signOf]
  split
  · rw [neg_one_mul, sub_eq_add_neg]
  · rw [one_mul]

/-- Every code keeps the rule with its own `d` line, sign and INDEX word: RECON, then the new predictor goes out. -/
theorem codeRule_decodeCode (code : Code) :
    CodeRule code (decodeCode code) (signOf code) (dLine code) (indexAt code) := by
  refine ⟨rfl, rfl, fun s => ⟨(s.cur.recon code).ps, (s.cur.recon code).si, exec_decodeCode code s, ?_,
    Codec.recon_si_val code s.cur⟩⟩
  rw [Codec.recon_ps_toInt, predictorSum_eq_add_signOf_mul, dq_eq_dLine]

/-- Settles O1: the rules of P0 to P7 are the rows of the code map with the sign bit clear. -/
theorem nonNegativeCodesAddTheirDifference : Obligations.NonNegativeCodesAddTheirDifference :=
  ⟨codeRule_decodeCode 0b0000#4, codeRule_decodeCode 0b0001#4, codeRule_decodeCode 0b0010#4,
    codeRule_decodeCode 0b0011#4, codeRule_decodeCode 0b0100#4, codeRule_decodeCode 0b0101#4,
    codeRule_decodeCode 0b0110#4, codeRule_decodeCode 0b0111#4⟩

/-- Settles O2: the rules of N0 to N7 are the rows of the code map with the sign bit set. -/
theorem negativeCodesSubtractTheirDifference : Obligations.NegativeCodesSubtractTheirDifference :=
  ⟨codeRule_decodeCode 0b1000#4, codeRule_decodeCode 0b1001#4, codeRule_decodeCode 0b1010#4,
    codeRule_decodeCode 0b1011#4, codeRule_decodeCode 0b1100#4, codeRule_decodeCode 0b1101#4,
    codeRule_decodeCode 0b1110#4, codeRule_decodeCode 0b1111#4⟩

/-! ## UNPACK (R97) -/

theorem lowNibble_toNat (b : Byte) : (lowNibble b).toNat = b.toNat &&& 0xF := by
  rw [lowNibble, BitVec.extractLsb'_toNat, Nat.shiftRight_zero]
  exact (Nat.and_two_pow_sub_one_eq_mod b.toNat 4).symm

theorem highNibble_toNat (b : Byte) : (highNibble b).toNat = (b.toNat >>> 4) &&& 0xF := by
  rw [highNibble, BitVec.extractLsb'_toNat]
  exact (Nat.and_two_pow_sub_one_eq_mod (b.toNat >>> 4) 4).symm

@[simp] theorem unpack_packByte (hi lo : Code) : unpack (packByte hi lo) = [lo, hi] := by
  rw [unpack, lowNibble_packByte, highNibble_packByte]

theorem packByte_nibbles (b : Byte) : packByte (highNibble b) (lowNibble b) = b :=
  (BitVec.extractLsb'_append_extractLsb'_eq_extractLsb' rfl).trans BitVec.extractLsb'_eq_self

/-- Settles O18: the nibbles as numbers, and the two directions of the inverse. -/
theorem unpackIsLowNibbleFirstAndUndoesPack : Obligations.UnpackIsLowNibbleFirstAndUndoesPack := by
  refine ⟨fun b => ?_, fun c0 c1 => unpack_packByte c1 c0, packByte_nibbles⟩
  rw [unpack, List.map_cons, List.map_singleton, lowNibble_toNat, highNibble_toNat]

/-! ## DECODE (R115, R117) -/

theorem exec_decode (bs : List Byte) (s : State) :
    exec (.decode bs) s = .next (s.updCur (Codec.decodeBytes bs)) := rfl

/-- Settles O21: the loop of DECODE over a concatenation is the two loops, one after the other. -/
theorem decodeChunksLikeOneCommand : Obligations.DecodeChunksLikeOneCommand := by
  intro xs ys s
  simp only [exec_decode, andThen_next, State.updCur_updCur]
  rw [funext (Codec.decodeBytes_append xs ys)]

/-- The predictor after each of some codes. -/
def predictorsAfter : List Code → Codec → List Sample
  | [], _ => []
  | c :: rest, k => (k.recon c).ps :: predictorsAfter rest (k.recon c)

@[simp] theorem predictorsAfter_length (cs : List Code) (k : Codec) : (predictorsAfter cs k).length = cs.length := by
  induction cs generalizing k with
  | nil => rfl
  | cons c rest ih => simp [predictorsAfter, ih]

/-- Predictor `j` is the one RECON of `j + 1` codes leaves. -/
theorem eq_reconAll_of_predictorsAfter_getElem? {cs : List Code} {k : Codec} {j : Nat} {v : Sample}
    (h : (predictorsAfter cs k)[j]? = some v) : v = (Codec.reconAll (cs.take (j + 1)) k).ps := by
  induction cs generalizing j k with
  | nil => simp [predictorsAfter] at h
  | cons c rest ih =>
    cases j with
    | zero => simpa [predictorsAfter, Codec.reconAll] using h.symm
    | succ j => exact ih h

/-- The predictors depend on the register pair alone. -/
theorem predictorsAfter_congr {k l : Codec} (h : k.regs = l.regs) (cs : List Code) :
    predictorsAfter cs k = predictorsAfter cs l := by
  induction cs generalizing k l with
  | nil => rfl
  | cons c rest ih =>
    have hregs := Codec.recon_regs_congr h c
    obtain ⟨hps, -⟩ := (Codec.regs_eq_iff _ _).mp hregs
    rw [predictorsAfter, hps, ih hregs, predictorsAfter]

/-- DEC_STEP of some codes writes the registers as RECON of them does, delivers the predictor after each code, and
changes nothing else. -/
theorem Codec.decSteps_eq (cs : List Code) (k : Codec) :
    Codec.decSteps cs k = { k with
      ps := (Codec.reconAll cs k).ps
      si := (Codec.reconAll cs k).si
      out := k.out ++ (predictorsAfter cs k).map .sample } := by
  induction cs generalizing k with
  | nil => simp [Codec.decSteps, Codec.reconAll, predictorsAfter]
  | cons c rest ih =>
    obtain ⟨hps, hsi⟩ := (Codec.regs_eq_iff _ _).mp (Codec.reconAll_congr (Codec.decStep_regs c k) rest)
    rw [Codec.decSteps, ih, hps, hsi, predictorsAfter_congr (Codec.decStep_regs c k)]
    simp [Codec.decStep_eq, Codec.reconAll, predictorsAfter]

/-- DECODE executes the two codes of each byte in order. -/
theorem Codec.decodeBytes_eq_decSteps_unpack (bs : List Byte) (k : Codec) :
    Codec.decodeBytes bs k = Codec.decSteps (bs.flatMap unpack) k := Codec.decodeBytes_eq_decSteps bs k

theorem flatMap_unpack_length (bs : List Byte) : (bs.flatMap unpack).length = 2 * bs.length := by
  simp [List.length_flatMap, unpack, Nat.mul_comm]

/-- Settles O8: the select value is the one `encode` gives a DECODE of nothing (O29), and the samples are the
predictors after the codes of the bytes. -/
theorem decodeEmitsThePredictorAfterEachNibble : Obligations.DecodeEmitsThePredictorAfterEachNibble := by
  refine ⟨decodeOfEncodeIsTheInstruction (.decode []), fun bs s =>
    ⟨predictorsAfter (bs.flatMap unpack) s.cur, ?_, ?_, fun j v hv => eq_reconAll_of_predictorsAfter_getElem? hv⟩⟩
  · rw [exec_decode, State.updCur, Codec.decodeBytes_eq_decSteps_unpack, Codec.decSteps_eq]
    rfl
  · rw [predictorsAfter_length, flatMap_unpack_length]

/-! ## The round trip (R118) -/

/-- The bytes of some codes carry these codes, and a padding code 0 after an odd number of them. -/
theorem flatMap_unpack_pairBytes (cs : List Code) :
    (pairBytes cs).flatMap unpack = cs ++ List.replicate (cs.length % 2) 0#4 := by
  induction cs using pairBytes.induct with
  | case1 => rfl
  | case2 a => simp
  | case3 a b rest ih => simp [ih, Nat.add_assoc]

theorem Codec.decodeBytes_pairBytes_of_even {cs : List Code} (h : cs.length % 2 = 0) (k : Codec) :
    Codec.decodeBytes (pairBytes cs) k = Codec.decSteps cs k := by
  rw [Codec.decodeBytes_eq_decSteps_unpack, flatMap_unpack_pairBytes, h, List.replicate_zero, List.append_nil]

theorem Codec.decodeBytes_pairBytes_of_odd {cs : List Code} (h : cs.length % 2 = 1) (k : Codec) :
    Codec.decodeBytes (pairBytes cs) k = (Codec.decSteps cs k).decStep 0#4 := by
  rw [Codec.decodeBytes_eq_decSteps_unpack, flatMap_unpack_pairBytes, h, Codec.decSteps_append]
  rfl

/-- DEC_STEP of the codes of an ENCODE, from the same registers, leaves the registers of the ENCODE. -/
theorem Codec.decSteps_codesOf_regs {k l : Codec} (h : k.regs = l.regs) (xs : List Sample) :
    (Codec.decSteps (codesOf xs k) l).regs = (k.encodeCommand xs).regs := by
  rw [Codec.decSteps_regs, Codec.encodeCommand_regs, Codec.reconAll_congr h]

/-- The padding code adds an eighth of the step size. -/
theorem Codec.recon_zero_ps_toInt (k : Codec) :
    (k.recon 0#4).ps.toInt = max (-32768) (min 32767 (k.ps.toInt + (stepAt k.si >>> 3 : Nat))) :=
  Codec.recon_ps_toInt 0#4 k

/-- Settles O23: the decoder executes the encoder's codes from the encoder's registers; after an odd number of them it
executes the padding code as well, from the registers the encoder ended in. -/
theorem roundTripGivesTheEncodersPredictors : Obligations.RoundTripGivesTheEncodersPredictors := by
  intro xs s u h
  have hout := Codec.decSteps_codesOf_out h xs
  have hregs := Codec.decSteps_codesOf_regs h xs
  refine ⟨pairBytes (codesOf xs s.cur), _, _, exec_encode xs s, s.cur.encodeCommand_out xs, exec_decode _ u,
    fun heven => ?_, fun hodd => ?_, predictorsOf_length xs s.cur⟩
  · rw [State.updCur_cur, State.updCur_cur, Codec.decodeBytes_pairBytes_of_even (by rwa [codesOf_length])]
    exact ⟨hout, hregs⟩
  · rw [State.updCur_cur, State.updCur_cur, Codec.decodeBytes_pairBytes_of_odd (by rwa [codesOf_length])]
    generalize Codec.decSteps (codesOf xs s.cur) u.cur = decoder at hout hregs ⊢
    obtain ⟨hps, hsi⟩ := (Codec.regs_eq_iff _ _).mp hregs
    rw [← hps, ← hsi, ← hregs, ← hout]
    exact ⟨(decoder.recon 0#4).ps, rfl, decoder.recon_zero_ps_toInt, rfl,
      Codec.recon_si_of_magnitude_le_three (by decide) decoder,
      Codec.recon_regs_eq_iff_of_magnitude_zero (by decide) decoder⟩

end Sys2Proof.Machine
end

section
/-! The exceptions family (60_exceptions.md): no instruction fails, and a step stops only where the caller breaks the
interface. What a step can answer is said once (`step_outcomes`): a codec can move unless the frame at its head does not
decode, so a step has a next state unless its turn names no codec or the mover is `Codec.Malformed`. -/

namespace Sys2Proof.Machine

/-! ## What a step can answer (R119) -/

/-- Between commands, with a frame at the head of the caller's frames that encodes no command, for the reason `e`. -/
def Codec.Malformed (k : Codec) (e : DecodeError) : Prop :=
  k.job = .idle ∧ ∃ f fs, k.cmds = f :: fs ∧ decodeFrame f = .error e

/-- A codec that takes a command can move: a frame encodes a command, never a code. -/
theorem Codec.Takes.exists_move {k : Codec} {i : Instr} {fs : List Frame} (ht : k.Takes i fs) : ∃ l, k.Move l := by
  obtain ⟨f, -, hf⟩ := ht.2
  obtain rfl | rfl | ⟨xs, rfl⟩ | ⟨bs, rfl⟩ := decodeFrame_command hf
  · exact ⟨_, .takeIdle ht⟩
  · exact ⟨_, .takeReset ht⟩
  · cases xs with
    | nil => exact ⟨_, .encodeNothing ht⟩
    | cons x rest => exact ⟨_, .startEncode ht⟩
  · cases bs with
    | nil => exact ⟨_, .decodeNothing ht⟩
    | cons b rest => exact ⟨_, .startDecode ht⟩

/-- Only a malformed frame keeps a codec from moving. -/
theorem Codec.exists_move_or_malformed (k : Codec) : (∃ l, k.Move l) ∨ ∃ e, k.Malformed e := by
  cases hjob : k.job with
  | idle =>
    cases hcmds : k.cmds with
    | nil => exact .inl ⟨k, .wait hjob hcmds⟩
    | cons f fs =>
      cases hf : decodeFrame f with
      | ok i => exact .inl (Codec.Takes.exists_move ⟨hjob, f, hcmds, hf⟩)
      | error e => exact .inr ⟨e, hjob, f, fs, hcmds, hf⟩
  | encoding pos rest => exact .inl ⟨_, .encode hjob⟩
  | decoding pos rest nibble =>
    cases rest with
    | nil => exact .inl ⟨_, .endDecode hjob⟩
    | cons b more => exact .inl ⟨_, .decode hjob⟩

theorem microStep_of_malformed {s : State} {e : DecodeError} (h : s.cur.Malformed e) :
    microStep s = .refused (.malformedFrame e) := by
  obtain ⟨hidle, f, fs, hcmds, hf⟩ := h
  simp [microStep, hidle, issue, hcmds, hf]

theorem step_of_malformed {s : State} {k : Codec} {e : DecodeError} (hk : s.all[s.mover]? = some k)
    (h : k.Malformed e) : step s = .refused (.malformedFrame e) := by
  obtain ⟨u, hturn, rfl, -⟩ := State.takeTurn_of_getElem? hk
  rw [step, hturn, andThen_next, microStep_of_malformed h]

theorem step_of_turn_out_of_range {s : State} {n : Nat} {ns : List Nat} (hturns : s.turns = n :: ns)
    (hn : s.all.length ≤ n) : step s = .refused (.noSuchInstance n) := by
  simp [step, State.takeTurn, hturns, State.focus_eq_none.mpr hn]

/-- Without a turn the selected codec moves, which exists; so a mover that does not exist is named by a turn. -/
theorem State.turns_of_no_mover {s : State} (h : s.all[s.mover]? = none) :
    ∃ n ns, s.turns = n :: ns ∧ s.all.length ≤ n := by
  cases hturns : s.turns with
  | nil => simp [State.mover, hturns, State.all_getElem?_selected] at h
  | cons n ns => exact ⟨n, ns, rfl, by simpa [State.mover, hturns] using h⟩

/-- The three things a step can answer. -/
theorem step_outcomes (s : State) :
    (∃ t, step s = .next t) ∨
    (∃ n ns, s.turns = n :: ns ∧ s.all.length ≤ n ∧ step s = .refused (.noSuchInstance n)) ∨
    (∃ k e, s.all[s.mover]? = some k ∧ k.Malformed e ∧ step s = .refused (.malformedFrame e)) := by
  cases hk : s.all[s.mover]? with
  | none =>
    obtain ⟨n, ns, hturns, hn⟩ := State.turns_of_no_mover hk
    exact .inr (.inl ⟨n, ns, hturns, hn, step_of_turn_out_of_range hturns hn⟩)
  | some k =>
    obtain ⟨l, hmove⟩ | ⟨e, hmalformed⟩ := k.exists_move_or_malformed
    · obtain ⟨t, hstep, -⟩ := step_of_move hk hmove
      exact .inl ⟨t, hstep⟩
    · exact .inr (.inr ⟨k, e, rfl, hmalformed, step_of_malformed hk hmalformed⟩)

/-! ## A served system (R120) -/

theorem wellFormed_eq_false_iff (f : Frame) : f.wellFormed = false ↔ ∃ e, decodeFrame f = .error e := by
  rw [← Bool.not_eq_true, ← decoderAcceptsExactlyWellFormedFrames f]
  cases decodeFrame f <;> simp

/-- A malformed codec has a waiting frame that is not well formed. -/
theorem Codec.Malformed.exists_not_wellFormed {k : Codec} {e : DecodeError} (h : k.Malformed e) :
    ∃ f ∈ k.cmds, f.wellFormed = false := by
  obtain ⟨-, f, fs, hcmds, hf⟩ := h
  exact ⟨f, by simp [hcmds], (wellFormed_eq_false_iff f).mpr ⟨e, hf⟩⟩

/-- A move takes at most the frame at the head. -/
theorem Codec.Move.cmds_suffix {k l : Codec} (hm : k.Move l) : l.cmds <:+ k.cmds := by
  cases hm with
  | wait => exact List.suffix_rfl
  | takeIdle ht | takeReset ht | encodeNothing ht | startEncode ht | decodeNothing ht | startDecode ht =>
    obtain ⟨-, f, hcmds, -⟩ := ht
    simp [hcmds]
  | encode | endDecode | decode => simp

theorem State.callerInv_iff (s : State) :
    s.callerInv = true ↔
      (∀ k ∈ s.all, ∀ f ∈ k.cmds, f.wellFormed = true) ∧ ∀ n ∈ s.turns, n < s.all.length := by
  simp [State.callerInv]

/-- What the caller has still to give after a step, it had to give before. -/
theorem callerInv_of_step {s t : State} (hs : s.callerInv = true) (hstep : step s = .next t) :
    t.callerInv = true := by
  rw [State.callerInv_iff] at hs ⊢
  obtain ⟨hframes, hturns⟩ := hs
  obtain ⟨k, l, hk, hmove, hall, htail⟩ := step_moves_mover_and_takes_turn hstep
  rw [hall, htail]
  refine ⟨fun m hm f hf => ?_, fun n hn => ?_⟩
  · obtain hm | rfl := List.mem_or_eq_of_mem_set hm
    · exact hframes m hm f hf
    · exact hframes k (List.mem_of_getElem? hk) f (hmove.cmds_suffix.mem hf)
  · rw [List.length_set]
    exact hturns n (List.mem_of_mem_tail hn)

/-- Settles O42: the caller's side excludes both refusals of a step, and a step only takes from it. -/
theorem aServedSystemNeverStops : Obligations.AServedSystemNeverStops := by
  intro s hs
  obtain ⟨hframes, hturns⟩ := (State.callerInv_iff s).mp hs
  obtain ⟨t, hstep⟩ | ⟨n, ns, hn, hlen, -⟩ | ⟨k, e, hk, hmalformed, -⟩ := step_outcomes s
  · exact ⟨t, hstep, callerInv_of_step hs hstep⟩
  · exact absurd (hturns n (by simp [hn])) (Nat.not_lt.mpr hlen)
  · obtain ⟨f, hf, hbad⟩ := hmalformed.exists_not_wellFormed
    exact absurd (hframes k (List.mem_of_getElem? hk) f hf) (by simp [hbad])

/-- Settles O43: of the three things a step can answer, two are refusals and none is a fault. -/
theorem onlyTheCallerCanStopAStep : Obligations.OnlyTheCallerCanStopAStep := by
  unfold Obligations.OnlyTheCallerCanStopAStep
  refine ⟨fun _ r => (nomatch r), fun s r hr => ?_, fun s n ns => step_of_turn_out_of_range,
    fun s f fs hturns hidle hcmds hbad => ?_⟩
  · obtain ⟨t, hstep⟩ | ⟨n, ns, hturns, hlen, hstep⟩ | ⟨k, e, hk, ⟨hidle, f, fs, hcmds, hf⟩, hstep⟩ := step_outcomes s
    · simp [hstep] at hr
    · obtain rfl : Refusal.noSuchInstance n = r := by simpa [hstep] using hr
      exact .inl ⟨n, ns, hturns, hlen, rfl⟩
    · obtain rfl : Refusal.malformedFrame e = r := by simpa [hstep] using hr
      exact .inr ⟨k, List.mem_of_getElem? hk, f, fs, e, hidle, hcmds, (wellFormed_eq_false_iff f).mpr ⟨e, hf⟩, rfl⟩
  · obtain ⟨e, hf⟩ := (wellFormed_eq_false_iff f).mp hbad
    exact ⟨e, by rw [step_of_no_turns hturns, microStep_of_malformed ⟨hidle, f, fs, hcmds, hf⟩]⟩

/-! ## What an instruction leaves (R119) -/

/-- `l` is `k` with other registers and another packer: same position and waiting frames, and an output that has only
grown. -/
def Codec.SamePlace (k l : Codec) : Prop :=
  l.job = k.job ∧ l.cmds = k.cmds ∧ k.out <+: l.out

theorem Codec.samePlace_decSteps (cs : List Code) (k : Codec) : k.SamePlace (Codec.decSteps cs k) := by
  rw [Codec.decSteps_eq]
  exact ⟨rfl, rfl, List.prefix_append _ _⟩

theorem Codec.samePlace_encodeCommand (xs : List Sample) (k : Codec) : k.SamePlace (k.encodeCommand xs) := by
  obtain ⟨held, h⟩ := k.encodeCommand_eq xs
  rw [h]
  exact ⟨rfl, rfl, List.prefix_append _ _⟩

theorem Codec.samePlace_decodeBytes (bs : List Byte) (k : Codec) : k.SamePlace (Codec.decodeBytes bs k) := by
  rw [Codec.decodeBytes_eq_decSteps]
  exact k.samePlace_decSteps _

/-- An instruction changes the selected codec alone, and leaves it in its place. -/
theorem exec_samePlace (i : Instr) :
    ∃ f : Codec → Codec, (∀ k : Codec, k.SamePlace (f k)) ∧ ∀ s, exec i s = .next (s.updCur f) := by
  obtain ⟨c, rfl⟩ | rfl | rfl | ⟨xs, rfl⟩ | ⟨bs, rfl⟩ := code_or_command i
  · exact ⟨_, Codec.samePlace_decSteps [c], exec_decodeCode c⟩
  · exact ⟨id, fun k => ⟨rfl, rfl, List.prefix_rfl⟩, exec_idle⟩
  · exact ⟨Codec.setRegs 0#16 0, fun k => ⟨rfl, rfl, List.prefix_rfl⟩, exec_reset⟩
  · exact ⟨_, Codec.samePlace_encodeCommand xs, exec_encode xs⟩
  · exact ⟨_, Codec.samePlace_decodeBytes bs, exec_decode bs⟩

/-- Settles O25: an instruction is a function of the selected codec that leaves it in its place. -/
theorem everyInstructionCompletesAndLeavesTheRest : Obligations.EveryInstructionCompletesAndLeavesTheRest := by
  intro i s
  obtain ⟨f, hplace, hexec⟩ := exec_samePlace i
  exact ⟨s.updCur f, hexec s, rfl, rfl, rfl, hplace s.cur⟩

/-! ## A command runs to completion (R134) -/

theorem Codec.decodeBytes_setJob (bs : List Byte) (j : Job) (k : Codec) :
    Codec.decodeBytes bs (k.setJob j) = (Codec.decodeBytes bs k).setJob j := by
  rw [Codec.decodeBytes_eq_decSteps, Codec.decSteps_setJob, Codec.decodeBytes_eq_decSteps]

/-- What leaves a codec in its place leaves an idle codec idle. -/
theorem Codec.SamePlace.setJob_idle {k l : Codec} (h : k.SamePlace l) (hidle : k.job = .idle) :
    l.setJob .idle = l := by
  obtain ⟨hjob, -, -⟩ := h
  rw [← hidle, ← hjob, Codec.setJob_self]

/-- With no turn listed, a step is a move of the selected codec. -/
theorem runSteps_succ_of_move {s : State} (hturns : s.turns = []) {k l : Codec} (hm : k.Move l) (n : Nat) :
    runSteps (n + 1) { s with cur := k } = runSteps n { s with cur := l } :=
  runSteps_succ_of_next (Eq.trans (step_of_no_turns (s := { s with cur := k }) hturns) (microStep_of_move hm))

/-- The steps of a running ENCODE, one per sample left, are the rest of its loop and FLUSH. -/
theorem runSteps_encoding {s : State} (hturns : s.turns = []) {k : Codec} {pos : Nat} {x : Sample}
    {rest : List Sample} (hjob : k.job = .encoding pos (x :: rest)) :
    runSteps (x :: rest).length { s with cur := k } =
      .next { s with cur := (Codec.encodeSamples (x :: rest) k).flush.setJob .idle } := by
  induction rest generalizing k pos x with
  | nil => exact runSteps_succ_of_move hturns (.encode hjob) 0
  | cons y more ih =>
    rw [List.length_cons, runSteps_succ_of_move hturns (.encode hjob), Codec.encodeNext, ih rfl,
      Codec.encodeSamples_setJob, Codec.flush_setJob, Codec.setJob_setJob]
    rfl

/-- Two steps of a running DECODE are the two codes of a byte, low before high. -/
theorem runSteps_byte {s : State} (hturns : s.turns = []) {k : Codec} {pos : Nat} {b : Byte} {more : List Byte}
    (hjob : k.job = .decoding pos (b :: more) .low) (n : Nat) :
    runSteps (n + 2) { s with cur := k } =
      runSteps n { s with cur := (k.decodeByte b).setJob (decodeAdvance pos b more .high) } := by
  have hhigh : ((k.decStep (fetchNibble b .low)).setJob (decodeAdvance pos b more .low)).job =
      .decoding pos (b :: more) .high := rfl
  rw [runSteps_succ_of_move hturns (Codec.Move.decode hjob), runSteps_succ_of_move hturns (Codec.Move.decode hhigh),
    Codec.decStep_setJob, Codec.setJob_setJob]
  rfl

/-- The steps of a running DECODE, two per byte left, are the rest of its loop. -/
theorem runSteps_decoding {s : State} (hturns : s.turns = []) {k : Codec} {pos : Nat} {b : Byte} {rest : List Byte}
    (hjob : k.job = .decoding pos (b :: rest) .low) :
    runSteps (2 * (b :: rest).length) { s with cur := k } =
      .next { s with cur := (Codec.decodeBytes (b :: rest) k).setJob .idle } := by
  induction rest generalizing k pos b with
  | nil => exact runSteps_byte hturns hjob 0
  | cons c more ih =>
    rw [List.length_cons, Nat.mul_succ, runSteps_byte hturns hjob, ih rfl, Codec.decodeBytes_setJob,
      Codec.setJob_setJob]
    rfl

/-- Accepting an ENCODE between commands, and then its micro-steps, are its meaning. -/
theorem runSteps_accept_encode {s : State} (hturns : s.turns = []) (hidle : s.cur.job = .idle) (x : Sample)
    (rest : List Sample) :
    andThen (accept (.encode (x :: rest)) s) (runSteps (x :: rest).length) = exec (.encode (x :: rest)) s := by
  rw [exec_encode, State.updCur, ← (s.cur.samePlace_encodeCommand (x :: rest)).setJob_idle hidle,
    Codec.encodeCommand, accept, andThen_next, State.updCur, runSteps_encoding hturns rfl,
    Codec.encodeSamples_setJob, Codec.flush_setJob, Codec.setJob_setJob]

/-- Accepting a DECODE between commands, and then its micro-steps, are its meaning. -/
theorem runSteps_accept_decode {s : State} (hturns : s.turns = []) (hidle : s.cur.job = .idle) (b : Byte)
    (rest : List Byte) :
    andThen (accept (.decode (b :: rest)) s) (runSteps (2 * (b :: rest).length)) = exec (.decode (b :: rest)) s := by
  rw [exec_decode, State.updCur, ← (s.cur.samePlace_decodeBytes (b :: rest)).setJob_idle hidle,
    accept, andThen_next, State.updCur, runSteps_decoding hturns rfl, Codec.decodeBytes_setJob, Codec.setJob_setJob]

/-- Accepting a command between commands, and then its micro-steps, are its meaning; without micro-steps it has its
effect when it is accepted. -/
theorem runSteps_accept {s : State} {i : Instr} (hturns : s.turns = []) (hidle : s.cur.job = .idle)
    (hi : i = .idle ∨ i = .reset ∨ (∃ xs, i = .encode xs) ∨ (∃ bs, i = .decode bs)) :
    andThen (accept i s) (runSteps i.microSteps) = exec i s := by
  obtain rfl | rfl | ⟨_ | ⟨x, rest⟩, rfl⟩ | ⟨_ | ⟨b, rest⟩, rfl⟩ := hi
  · rfl
  · rfl
  · rfl
  · exact runSteps_accept_encode hturns hidle x rest
  · rfl
  · exact runSteps_accept_decode hturns hidle b rest

/-- Settles O36: the frame at the head is taken and its command accepted, and the rest of the run is its micro-steps. -/
theorem microStepsOfACommandAreItsMeaning : Obligations.MicroStepsOfACommandAreItsMeaning := by
  intro s f fs i hturns hidle hcmds hf
  rw [runSteps_succ, step_of_no_turns hturns, microStep_of_frame hidle hcmds hf]
  exact runSteps_accept hturns hidle (decodeFrame_command hf)

end Sys2Proof.Machine
end

section
/-! The reset and hazards family (70_reset_and_hazards.md): the fresh registers, silence from them, and how long a
difference of the indices lasts. Silence is a steady state of RECON: at index 0 a sample equal to the predictor gets the
code 0 (`Codec.codeFor_ps`), and the code 0 moves neither register. -/

namespace Sys2Proof.Machine

/-! ## The fresh registers (R136, R137) -/

/-- Creation makes every instance fresh, however many there are. -/
theorem eq_fresh_of_mem_reset_all {k : Codec} (hk : k ∈ State.reset.all) : k = Codec.fresh := by
  rw [State.all, List.mem_append, List.mem_cons] at hk
  obtain hbefore | hcur | hafter := hk
  · cases hbefore
  · exact hcur
  · exact List.eq_of_mem_replicate hafter

/-- Settles O6: every instance of the reset state is the fresh one, and RESET writes the two registers. -/
theorem powerOnAndResetGiveTheFreshRegisters : Obligations.PowerOnAndResetGiveTheFreshRegisters := by
  refine ⟨fun k hk => ?_, fun s => ⟨_, exec_reset s, rfl, rfl⟩⟩
  obtain rfl := eq_fresh_of_mem_reset_all hk
  exact ⟨rfl, rfl, rfl, rfl⟩

/-! ## Silence (R148) -/

/-- A sample equal to the predictor gets the code 0, whatever the index: every threshold is positive. -/
theorem Codec.codeFor_ps (k : Codec) : k.codeFor k.ps = 0#4 := by
  have hlow := (stepAt_bounds k.si).1
  obtain ⟨m2, m1, m0, hcode, h2, h1, h0⟩ := quant_greedy k.ps.toInt k.ps.toInt (stepAt k.si)
  rw [sub_self, Int.natAbs_zero] at h2 h1 h0
  have unmet {bit : Bool} {threshold : Nat} (h : bit = true ↔ threshold ≤ 0) (hpos : 0 < threshold) : bit = false :=
    Bool.eq_false_iff.mpr fun hbit => absurd (h.mp hbit) (Nat.not_le.mpr hpos)
  obtain rfl := unmet h2 (by omega)
  obtain rfl := unmet h1 (by omega)
  obtain rfl := unmet h0 (by omega)
  rw [Codec.codeFor, hcode, sub_self]
  rfl

/-- At index 0 the code 0 moves neither register. -/
theorem Codec.recon_zero_regs {k : Codec} (hsi : k.si = 0) : (k.recon 0#4).regs = k.regs :=
  (Codec.recon_regs_eq_iff_of_magnitude_zero (by decide) k).mpr hsi

theorem Codec.reconAll_replicate_zero_regs {k : Codec} (hsi : k.si = 0) (n : Nat) :
    (Codec.reconAll (List.replicate n 0#4) k).regs = k.regs := by
  induction n with
  | zero => rfl
  | succ n ih => exact (Codec.reconAll_congr (Codec.recon_zero_regs hsi) _).trans ih

/-- At index 0 a held sample that the predictor has reached is encoded by codes 0. -/
theorem codesOf_replicate_ps {k : Codec} (hsi : k.si = 0) (n : Nat) :
    codesOf (List.replicate n k.ps) k = List.replicate n 0#4 := by
  induction n with
  | zero => rfl
  | succ n ih =>
    rw [List.replicate_succ, codesOf, Codec.codeFor_ps, codesOf_congr (Codec.recon_zero_regs hsi), ih,
      List.replicate_succ]

theorem predictorsAfter_replicate_zero {k : Codec} (hsi : k.si = 0) (n : Nat) :
    predictorsAfter (List.replicate n 0#4) k = List.replicate n k.ps := by
  induction n with
  | zero => rfl
  | succ n ih =>
    have hregs := Codec.recon_zero_regs hsi
    rw [List.replicate_succ, predictorsAfter, predictorsAfter_congr hregs, ih,
      ((Codec.regs_eq_iff _ _).mp hregs).1, List.replicate_succ]

/-- Codes 0 go out in zero bytes; the padding of an odd number of them is a code 0 as well. -/
theorem pairBytes_replicate_zero (n : Nat) :
    pairBytes (List.replicate n 0#4) = List.replicate ((n + 1) / 2) 0#8 := by
  rw [List.eq_replicate_iff, pairBytes_length, List.length_replicate]
  refine ⟨rfl, fun b hb => ?_⟩
  obtain ⟨i, hi⟩ := List.mem_iff_getElem?.mp hb
  rw [eq_packByte_of_pairBytes_getElem? hi]
  simp only [List.getD_eq_getElem?_getD, List.getElem?_getD_replicate_default_eq]
  rfl

theorem flatMap_unpack_replicate_zero (n : Nat) :
    (List.replicate n 0#8).flatMap unpack = List.replicate (2 * n) 0#4 := by
  have hunpack : unpack 0#8 = List.replicate 2 0#4 := by decide
  rw [List.flatMap_replicate, hunpack, List.flatten_replicate_replicate, Nat.mul_comm]

/-- Settles O26: both commands are runs of codes 0 from index 0. -/
theorem silenceFromFreshIsExactlySilence : Obligations.SilenceFromFreshIsExactlySilence := by
  intro s n hps hsi
  have hcodes : codesOf (List.replicate n 0#16) s.cur = List.replicate n 0#4 := hps ▸ codesOf_replicate_ps hsi n
  have hrest (m : Nat) := (Codec.regs_eq_iff _ _).mp (Codec.reconAll_replicate_zero_regs hsi m)
  constructor
  · obtain ⟨held, henc⟩ := s.cur.encodeCommand_eq (List.replicate n 0#16)
    refine ⟨_, exec_encode _ s, ?_⟩
    rw [State.updCur_cur, henc, hcodes, pairBytes_replicate_zero, List.map_replicate]
    exact ⟨(hrest n).1.trans hps, (hrest n).2.trans hsi, rfl⟩
  · refine ⟨_, exec_decode _ s, ?_⟩
    rw [State.updCur_cur, Codec.decodeBytes_eq_decSteps_unpack, flatMap_unpack_replicate_zero, Codec.decSteps_eq,
      predictorsAfter_replicate_zero hsi, hps, List.map_replicate]
    exact ⟨(hrest (2 * n)).1.trans hps, (hrest (2 * n)).2.trans hsi, rfl⟩

/-! ## How long a mismatch lasts (R144) -/

theorem Codec.recon_si_of_not_clamped {c : Code} {k : Codec} (hlow : 0 ≤ (k.si.val : Int) + indexAt c)
    (hhigh : (k.si.val : Int) + indexAt c ≤ 88) : ((k.recon c).si.val : Int) = k.si.val + indexAt c := by
  rw [Codec.recon_si_val, min_eq_right hhigh, max_eq_right hlow]

/-- Settles O27: both indices move by the INDEX word of the code. -/
theorem indexDifferenceSurvivesACode : Obligations.IndexDifferenceSurvivesACode := by
  intro c k l hklow hkhigh hllow hlhigh
  rw [Codec.recon_si_of_not_clamped hklow hkhigh, Codec.recon_si_of_not_clamped hllow hlhigh, add_sub_add_right_eq_sub]

end Sys2Proof.Machine
end

section
/-! The size of the quantization error (95_test_vectors.md V-ERR). QUANT is a successive approximation: each of its
three comparisons about halves what is left of the absolute difference (`quant_greedy`), down to a quarter of the step
size; DQ adds the thresholds that were taken and an eighth of the step size, the middle of that rest. -/

namespace Sys2Proof.Machine

/-- DQ of an assembled code: the eighth of the step size, and on top of it the thresholds of the bits that are set. -/
theorem dq_codeOfBits (sign m2 m1 m0 : Bool) (step : Nat) :
    dq (codeOfBits sign m2 m1 m0) step =
      step / 8 + ((if m2 then step else 0) + (if m1 then step / 2 else 0) + (if m0 then step / 4 else 0)) := by
  obtain ⟨-, h2, h1, h0⟩ := codeOfBits_bits sign m2 m1 m0
  rw [dq_eq_dLine, dLine, h2, h1, h0]
  omega

/-- One comparison of the greedy quantizer: if what is left over `taken` is below `threshold + rest`, then what is left
after the comparison is below `rest`, the greater of the two parts. -/
theorem rest_lt_of_comparison {bit : Bool} {a taken threshold rest : Nat} (hbit : bit = true ↔ taken + threshold ≤ a)
    (hlow : taken ≤ a) (hhigh : a < taken + (threshold + rest)) (hle : threshold ≤ rest) :
    taken + (if bit then threshold else 0) ≤ a ∧ a < taken + (if bit then threshold else 0) + rest := by
  split
  case isTrue hset =>
    have hfits := hbit.mp hset
    omega
  case isFalse hclear =>
    have hmisses := mt hbit.mpr hclear
    omega

/-- Without overload the thresholds QUANT takes fall short of the absolute difference by at most a quarter of the step
size and 1. -/
theorem quant_rest_le {s p : Int} {step : Nat} (hload : (s - p).natAbs < 2 * step) :
    ∃ taken : Nat, dq (quant s p step) step = step / 8 + taken ∧
      taken ≤ (s - p).natAbs ∧ (s - p).natAbs ≤ taken + (step / 4 + 1) := by
  obtain ⟨m2, m1, m0, hcode, h2, h1, h0⟩ := quant_greedy s p step
  rw [← Nat.zero_add step] at h2
  obtain ⟨hlow2, hrest2⟩ := rest_lt_of_comparison (rest := step) h2 (by omega) (by omega) (by omega)
  rw [Nat.zero_add] at hlow2 hrest2
  obtain ⟨hlow1, hrest1⟩ := rest_lt_of_comparison (rest := step / 2 + 1) h1 hlow2 (by omega) (by omega)
  obtain ⟨hlow0, hrest0⟩ := rest_lt_of_comparison (rest := step / 4 + 2) h0 hlow1 (by omega) (by omega)
  exact ⟨_, by rw [hcode, dq_codeOfBits], hlow0, Nat.le_of_lt_succ hrest0⟩

/-- Settles O28: the error is the rest that QUANT leaves, at most `step / 4 + 1`, less the eighth of the step size. -/
theorem quantizationErrorWithoutOverloadIsBounded : Obligations.QuantizationErrorWithoutOverloadIsBounded := by
  intro i a hload
  obtain ⟨taken, hdq, hlow, hhigh⟩ := quant_rest_le (s := a) (p := 0) (by rwa [sub_zero, Int.natAbs_natCast])
  rw [sub_zero, Int.natAbs_natCast] at hlow hhigh
  rw [hdq]
  omega

end Sys2Proof.Machine
end
